-- ==== Sys2Proof/Word.lean ====
section
/-! DEFINITION. The word types of the block (00_scope.md R10) and the geometry that later files write as numerals:
6 byte rows, 84 pixel columns, 504 = 6 * 84 frame bytes, 5 glyph columns, 6 columns a character (R6). -/

namespace Sys2Proof

/-- `u8` (R10): a command byte, a data byte, a strip, a payload byte. -/
abbrev Byte := BitVec 8

/-- The 32-bit request word (R52). -/
abbrev Word := BitVec 32

end Sys2Proof
end

