-- ==== Sys2Proof/Config.lean ====
section
/-! DEFINITION. The construction parameters of the block (00_scope.md R7, 10_state.md R21) and the one set of them that
the model's reset state is built with (notes/assumptions/6.md). -/

namespace Sys2Proof

/-- `GLYPH` (R25): five column bytes for each printable byte 0x20..0x7E, entry `k` for the byte `0x20 + k`. -/
abbrev GlyphTable := Vector (Vector Byte 5) 95

/-- `CFG` (R21): set when the block is constructed, read by the requests, written by none. -/
structure Cfg where
  contrast      : Byte
  cmdFsExt      : Byte
  cmdTempco     : Byte
  cmdBias       : Byte
  cmdFsBasic    : Byte
  cmdDispNormal : Byte
  cmdFsVert     : Byte
  cmdFsPd       : Byte
  /-- OR-ed with the row (R7). -/
  cmdSetY       : Byte
  /-- OR-ed with the column (R7). -/
  cmdSetX       : Byte
  /-- Milliseconds (R7). -/
  blinkDelay    : BitVec 32
  glyph         : GlyphTable
deriving DecidableEq, Repr

/-- The parameters R7 leaves OPEN are arguments; the nine command bytes are R7's defaults. -/
def Cfg.withDefaults (contrast : Byte) (blinkDelay : BitVec 32) (glyph : GlyphTable) : Cfg :=
  { contrast, blinkDelay, glyph,
    cmdFsExt := 0x21#8, cmdTempco := 0x04#8, cmdBias := 0x14#8, cmdFsBasic := 0x20#8, cmdDispNormal := 0x0C#8,
    cmdFsVert := 0x22#8, cmdFsPd := 0x24#8, cmdSetY := 0x40#8, cmdSetX := 0x80#8 }

/-- The glyph table of 95_test_vectors.md section 0: every column of the glyph of a byte is that byte.
DESIGN CHOICE (unsafe, notes/assumptions/6.md): `GLYPH` is OPEN. -/
def GlyphTable.test : GlyphTable :=
  Vector.ofFn fun c => Vector.replicate 5 (BitVec.ofNat 8 (0x20 + c.val))

/-- The parameters `State.reset` is constructed with: those of 95_test_vectors.md section 0.
DESIGN CHOICE (unsafe, notes/assumptions/6.md): `CONTRAST`, `BLINK_DELAY` and `GLYPH` are OPEN. -/
def Cfg.test : Cfg := Cfg.withDefaults 0xB1#8 500#32 GlyphTable.test

end Sys2Proof
end

