-- ==== Sys2Proof/Syntax.lean ====
section
/-! DEFINITION. The requests of the block (30_encoding.md R52 to R58): the request as the port carries it, and the
sixteen operations of the opcode map, one constructor a row of spec/opcode_table.json. -/

namespace Sys2Proof

/-- A request on the port: one 32-bit word, and the payload bytes presented after it (R52, R60). -/
structure Request where
  word    : Word
  payload : List Byte
deriving DecidableEq, Repr

/-- The operations of R58 with the operands of R54 to R57. The operand `LEN` of format L is the length of the byte
sequence the constructor carries (R56, R60). -/
inductive Instr where
  /-- INIT, 0x01, format N (R67). -/
  | init
  /-- CLEAR, 0x02, format N (R71). -/
  | clear
  /-- PRINT, 0x03, format L: the bytes of `text` (R77). -/
  | print (text : List Byte)
  /-- PRINT_CHAR, 0x04, format K (R80). -/
  | printChar (ch : Byte)
  /-- SET_CURSOR, 0x05, format C (R74). -/
  | setCursor (col row : Byte)
  /-- DRAW_BUFFER, 0x06, format L: the bytes of `frame`, of any length the field LEN can hold (R92). -/
  | drawBuffer (frame : List Byte)
  /-- NEW_LINE, 0x07, format N (R87). -/
  | newLine
  /-- SCROLL, 0x08, format N (R89). -/
  | scroll
  /-- POWER_DOWN, 0x09, format N (R97). -/
  | powerDown
  /-- WAKE_UP, 0x0A, format N (R98). -/
  | wakeUp
  /-- BLINK, 0x0B, format T: the count `n` (R100). -/
  | blink (n : BitVec 16)
  /-- SINE, 0x10, format S: `IMM` is the sign extension of `imm` (R57, R106). -/
  | sine (imm : BitVec 24)
  /-- DIST, 0x11, format U (R57, R109). -/
  | dist (q : BitVec 24)
  /-- GEN_RADIAL, 0x12, format T: the time step (R114). -/
  | genRadial (t : BitVec 16)
  /-- GEN_INTERF, 0x13, format T: the time step (R116). -/
  | genInterf (t : BitVec 16)
  /-- GEN_FRACTAL, 0x14, format T: the time step (R121). -/
  | genFractal (t : BitVec 16)
deriving DecidableEq, Repr

end Sys2Proof
end

