-- ==== Sys2Proof/Machine/State.lean ====
section
/-! DEFINITION. The state of the block (10_state.md) and its state after reset (70_reset_and_hazards.md R151). -/

namespace Sys2Proof.Machine

/-- `MODE` (R14): `UNINIT = 0`, `READY = 1`. -/
inductive Mode where
  | uninit
  | ready
deriving DecidableEq, Repr

/-- `CUR` (R16, R17): column 0..83, row 0..5. -/
structure Cursor where
  col : Fin 84
  row : Fin 6
deriving DecidableEq, Repr

/-- A memory: (address, byte) pairs in one canonical form (`Memory.wf`); an unlisted address reads 0x00, the value
R34 gives every shadow byte at reset (notes/assumptions/15.md). -/
abbrev Memory := List Host.Cell

/-- A backend event (R31). -/
inductive Event where
  /-- `Cmd(b)`: one byte to the device's command register. -/
  | cmd (b : Byte)
  /-- `Dat(b)`: one byte to the device's data register. -/
  | dat (b : Byte)
  /-- `Delay(ms)`: a blocking wait asked of the platform. -/
  | delay (ms : BitVec 32)
deriving DecidableEq, Repr

/-- The block's own fault codes (R125). They are recorded and answered; none of them stops the machine (R126, R130). -/
inductive ErrCode where
  | illegalOp
  | notReady
  | frameSize
  | timeRange
deriving DecidableEq, Repr

/-- `VALUE` of a response (R61). -/
inductive Value where
  | none
  /-- An i32: SINE. -/
  | i32 (v : BitVec 32)
  /-- A u8: DIST. -/
  | u8 (v : Byte)
  /-- A 504-byte frame: GEN_RADIAL, GEN_INTERF, GEN_FRACTAL. -/
  | frame (bytes : List Byte)
deriving DecidableEq, Repr

/-- A response (R61). `fault` is 0 for success, otherwise the code this request raised; its width is that of `STATUS.ERR`
(notes/assumptions/8.md). -/
structure Response where
  status : Byte
  fault  : BitVec 3
  value  : Value
deriving DecidableEq, Repr

/-- The state of the block and of its two interfaces. -/
structure State where
  /-- `MODE` (R14). -/
  mode      : Mode
  /-- `CUR` (R16). -/
  cur       : Cursor
  /-- `SH`, the shadow buffer, indexes 0..503 (R19). -/
  sh        : Memory
  /-- `CFG` (R21). -/
  cfg       : Cfg
  /-- `STATUS` (R22). -/
  status    : Byte
  /-- `LOG`, oldest event first (R31, R32). -/
  log       : List Event
  /-- The request port: requests presented and not yet accepted, oldest first (R52; notes/assumptions/1.md). -/
  port      : List Request
  /-- The responses returned, oldest first (R61, R142; notes/assumptions/2.md). -/
  responses : List Response
deriving DecidableEq, Repr

/-- A fault that stops the machine: there is none. Every fault of the spec is recorded in `STATUS.ERR` and answered, and
the block accepts the next request (R126, R129, R130); nobody raises a stop (notes/assumptions/17.md). -/
inductive Fault : Type
deriving DecidableEq, Repr

/-- Why there is no step. -/
inductive Refusal where
  /-- Raised by `exec` for an instruction without a meaning; safe. No arm raises it. -/
  | notModelled (mnemonic : String)
  /-- Raised by `step`: the configuration is not well-formed, and the model refuses it (R8, U8); safe. -/
  | illFormedConfiguration
  /-- Raised by `step`: what stands on the port is no request, since its payload does not have the length its word
  announces (R60, R141); safe. -/
  | malformedRequest
deriving DecidableEq, Repr

/-- The block right after its construction with the parameters `c` (R34, R151). -/
def State.constructed (c : Cfg) : State :=
  { mode := .uninit, cur := ⟨0, 0⟩, sh := [], cfg := c, status := 0x00#8, log := [], port := [], responses := [] }

/-- The block right after reset, constructed with the parameters `Cfg.test` (notes/assumptions/6.md). -/
def State.reset : State := State.constructed Cfg.test

end Sys2Proof.Machine
end

