-- ==== Sys2Proof/Machine/Flags.lean ====
section
/-! DEFINITION. The status register (10_state.md R22). The block has no condition flags (R30); `ERR` is its one field. -/

namespace Sys2Proof.Machine

/-- The code of a fault (R125). -/
def ErrCode.code : ErrCode → BitVec 3
  | .illegalOp => 1#3
  | .notReady => 2#3
  | .frameSize => 3#3
  | .timeRange => 4#3

/-- `STATUS.ERR`, bits [2:0] (R22). -/
def errField (status : Byte) : BitVec 3 := status.extractLsb' 0 3

/-- `STATUS` as a response carries it: bits [7:3] read as zero (R22). -/
def readStatus (status : Byte) : Byte := status &&& 0x07#8

/-- `if STATUS.ERR = 0 then STATUS.ERR <- code` (R126): the field is sticky (R22). -/
def recordErr (status : Byte) (e : ErrCode) : Byte :=
  if errField status == 0#3 then status.extractLsb' 3 5 ++ e.code else status

end Sys2Proof.Machine
end

