-- ==== Sys2Proof/Machine/Memory.lean ====
section
/-! DEFINITION. One byte of a memory, read and written (00_scope.md R11, 20_memory.md R35, R45), and the two moves of all 504
bytes that the rules write as loops of single-byte writes; Sys2Proof/Laws/Loops.lean proves each move equal to its loop.
Addresses are compared with `Nat.beq` and `Nat.ble`, which Lean's kernel computes directly. -/

namespace Sys2Proof.Machine

/-- `MemRead(i, 1)`: an unlisted index reads 0x00. -/
def Memory.read : Memory → Nat → Byte
  | [], _ => 0x00#8
  | (b, u) :: m, a => bif Nat.beq a b then u else Memory.read m a

/-- `m` without the entries for the address `a`. -/
def Memory.erase : Memory → Nat → Memory
  | [], _ => []
  | (b, u) :: m, a => bif Nat.beq a b then Memory.erase m a else (b, u) :: Memory.erase m a

/-- `m` with `(a, v)` put in before the first higher address. -/
def Memory.insert : Memory → Nat → Byte → Memory
  | [], a, v => [(a, v)]
  | (b, u) :: m, a, v => bif Nat.ble a b then (a, v) :: (b, u) :: m else (b, u) :: Memory.insert m a v

/-- `MemWrite(i, 1, v)`: writing 0x00, which an unlisted index reads as, leaves the index unlisted. -/
def Memory.write (m : Memory) (a : Nat) (v : Byte) : Memory :=
  if v = 0x00#8 then Memory.erase m a else Memory.insert (Memory.erase m a) a v

/-- The canonical form from address `lo` on: addresses strictly rising and below 504, no entry 0x00. -/
def Memory.wfFrom : Nat → Memory → Bool
  | _, [] => true
  | lo, (a, v) :: m => decide (lo ≤ a) && decide (a < 504) && (v != 0x00#8) && Memory.wfFrom (a + 1) m

/-- The canonical form of the shadow buffer's memory: addresses strictly rising, all of them in 0..503 (R35), and no entry
equal to what an unlisted address reads as. -/
def Memory.wf (m : Memory) : Bool := Memory.wfFrom 0 m

/-- The memory that holds the bytes of a list from address `a` on and nothing else. With 504 bytes and `a = 0` it is what
`for i in 0 .. 503: MemWrite(i, 1, bs[i])` leaves (`writeFrom_whole`). -/
def Memory.ofBytes : Nat → List Byte → Memory
  | _, [] => []
  | a, v :: vs => if v = 0x00#8 then Memory.ofBytes (a + 1) vs else (a, v) :: Memory.ofBytes (a + 1) vs

/-- Each of the bytes 84..503 moved down one row, the last row left 0x00: what the two loops of SCROLL_BODY leave (R88,
`moveDown_scroll`). -/
def Memory.scrollUp : Memory → Memory
  | [] => []
  | (a, v) :: m =>
    bif Nat.ble 84 a && Nat.ble a 503 then (a - 84, v) :: Memory.scrollUp m else Memory.scrollUp m

/-- The `n` bytes from address `a` on, in ascending order. -/
def Memory.bytes (m : Memory) (a n : Nat) : List Byte := (List.range n).map fun k => m.read (a + k)

end Sys2Proof.Machine
end

