-- ==== Sys2Proof/Machine/Operands.lean ====
section
/-! DEFINITION. What the rules compute from an operand before they use it: the byte classes of text (R78, R80), the glyph of
a character (R25), the coordinates' address (R36), the sign-extended angle (R57), the arithmetic shift (R10). -/

namespace Sys2Proof.Machine

/-- *printable*: 0x20 ≤ b ≤ 0x7E (R78). -/
def isPrintable (b : Byte) : Bool := decide (0x20 ≤ b.toNat) && decide (b.toNat ≤ 0x7E)

/-- *newline*: 0x0A and no other byte (R78). -/
def isNewline (b : Byte) : Bool := b == 0x0A#8

/-- The glyph number of a byte: its own where it is printable, that of the placeholder `?` = 0x3F otherwise (R77, R80). -/
def glyphIndex (b : Byte) : Fin 95 :=
  if h : 0x20 ≤ b.toNat ∧ b.toNat ≤ 0x7E then ⟨b.toNat - 0x20, by omega⟩ else ⟨0x3F - 0x20, by omega⟩

/-- The six bytes a character is written as: `GLYPH(c)[0..4]`, then the blank spacer (R81). -/
def glyphBytes (c : Cfg) (g : Fin 95) : List Byte := c.glyph[g].toList ++ [0x00#8]

/-- `offset(col, row) = row*COLS + col`, in 0..503 (R36). The bounded arguments leave no out-of-range case (R38). -/
def offset (col : Fin 84) (row : Fin 6) : Fin 504 := ⟨row.val * 84 + col.val, by omega⟩

/-- `IMM = sext_32(word[31:8])`, a signed 24-bit value (R57). -/
def angle (imm : BitVec 24) : Int := (imm.signExtend 32).toInt

/-- `Q = zext_32(word[31:8])` (R57). -/
def squaredDistance (q : BitVec 24) : Nat := (q.zeroExtend 32).toNat

/-- `T = zext_32(word[31:16])` (R55). -/
def timeStep (t : BitVec 16) : Nat := (t.zeroExtend 32).toNat

/-- `a >> k` on a signed value: the arithmetic shift right, `floor(a / 2^k)` (R10). -/
def asr (a : Int) (k : Nat) : Int := a >>> k

end Sys2Proof.Machine
end

