-- ==== Sys2Proof/Machine/Ops.lean ====
section
/-! DEFINITION. The shared operations of the requests: the primitives of 00_scope.md R11, the one way a request faults
(60_exceptions.md R126), the one way it succeeds (30_encoding.md R61), the mode gate (41_lifecycle.md R66), and the bodies that
several requests call (SET_CURSOR_BODY, CLEAR_BODY, SCROLL_BODY, NEW_LINE_BODY, PRINT_CHAR_BODY, ADVANCE). -/

namespace Sys2Proof.Machine

/-- `emit`: backend events appended to `LOG` in emission order (R31, R32). -/
def emit (es : List Event) (s : State) : State := { s with log := s.log ++ es }

/-- `emit Dat(b)` for each byte of a sequence (R11, R31). -/
def emitData (bs : List Byte) (s : State) : State := emit (bs.map Event.dat) s

/-- `[0x00; n]` (R10). -/
def zeros (n : Nat) : List Byte := List.replicate n 0x00#8

/-- `get(col, row)` (R37). -/
def get (col : Fin 84) (row : Fin 6) (s : State) : Byte := s.sh.read (offset col row)

/-- `set(col, row, v)` (R37). -/
def set (col : Fin 84) (row : Fin 6) (v : Byte) (s : State) : State := { s with sh := s.sh.write (offset col row) v }

/-- `SH[0..503]` in index order. -/
def shadow (s : State) : List Byte := s.sh.bytes 0 504

/-- The response of a request that succeeded (R61). -/
def respond (v : Value) (s : State) : State :=
  { s with responses := s.responses ++ [{ status := readStatus s.status, fault := 0#3, value := v }] }

/-- `raise E` (R126, R129): the one way a request faults. The first code is recorded, the response names this request's own
code, and nothing else changes. There is no handler to enter and no return from a fault (R130). -/
def raise (e : ErrCode) (s : State) : State :=
  { s with
    status := recordErr s.status e
    responses := s.responses ++ [{ status := readStatus (recordErr s.status e), fault := e.code, value := .none }] }

/-- The mode gate (R66): `if MODE != READY: raise E_NOT_READY`, otherwise the body. -/
def whenReady (body : State → State) (s : State) : State :=
  match s.mode with
  | .ready => body s
  | .uninit => raise .notReady s

/-- The two positioning commands, row first, then column (R73, R75). -/
def positioning (c : Cfg) (col row : Nat) : List Event :=
  [.cmd (c.cmdSetY ||| BitVec.ofNat 8 row), .cmd (c.cmdSetX ||| BitVec.ofNat 8 col)]

/-- SET_CURSOR_BODY (R73), the only way the device is positioned (R76); out of range, nothing happens. -/
def setCursorBody (col row : Nat) (s : State) : State :=
  if h : col < 84 ∧ row < 6 then { emit (positioning s.cfg col row) s with cur := ⟨⟨col, h.1⟩, ⟨row, h.2⟩⟩ } else s

/-- `for i in 0 .. 503: MemWrite(i, 1, bs[i])`, for a list of 504 bytes. -/
def storeShadow (bs : List Byte) (s : State) : State := { s with sh := Memory.ofBytes 0 bs }

/-- CLEAR_BODY (R70). -/
def clearBody (s : State) : State :=
  setCursorBody 0 0 <| storeShadow (zeros 504) <| emitData (zeros 504) <|
    setCursorBody 0 0 s

/-- The shadow half of SCROLL_BODY (R88): rows 1..5 move to rows 0..4, the last row is zeroed. -/
def shiftShadow (s : State) : State :=
  { s with sh := s.sh.scrollUp }

/-- SCROLL_BODY (R88): the cursor ends in its column on the row above, clamped at row 0. -/
def scrollBody (s : State) : State :=
  let shifted := setCursorBody 0 0 (shiftShadow s)
  setCursorBody s.cur.col (s.cur.row - 1 : Nat) <|
    emitData (shifted.sh.bytes 0 420 ++ zeros 84) shifted

/-- ADVANCE (R82), run after every byte of a character: on an overflow from the last row the scroll comes first (R83). -/
def advance (s : State) : State :=
  if s.cur.col.val + 1 = 84 then
    if s.cur.row.val = 5 then
      let scrolled := scrollBody { s with cur := { s.cur with col := 0 } }
      setCursorBody 0 (scrolled.cur.row + 1) scrolled
    else setCursorBody 0 (s.cur.row + 1) s
  else setCursorBody (s.cur.col + 1) s.cur.row s

/-- One byte of PRINT_CHAR_BODY (R81): to the device, into `SH` at the cursor before it advances, then ADVANCE. -/
def putByte (s : State) (b : Byte) : State := advance (set s.cur.col s.cur.row b (emitData [b] s))

/-- PRINT_CHAR_BODY (R81), for the character with glyph number `g`. -/
def printCharBody (g : Fin 95) (s : State) : State := (glyphBytes s.cfg g).foldl putByte s

/-- NEW_LINE_BODY (R87). -/
def newLineBody (s : State) : State :=
  let scrolled := if s.cur.row.val = 5 then scrollBody s else s
  setCursorBody 0 ((scrolled.cur.row.val + 1) % 6) scrolled

/-- What PRINT does with one byte (R77). -/
def printByte (s : State) (b : Byte) : State :=
  if isPrintable b then printCharBody (glyphIndex b) s
  else if isNewline b then newLineBody s
  else printCharBody (glyphIndex 0x3F#8) s

end Sys2Proof.Machine
end

