-- ==== Sys2Proof/Machine/Tables.lean ====
section
/-! DEFINITION. The read-only tables of the generators (10_state.md R23, R24; 45_generators.md R104, R108) and the fractal's
last time step (00_scope.md R7). -/

namespace Sys2Proof.Machine

/-- `SINE_ROM[0..29]` (R104). -/
def sineRomLow : List Int :=
  [0, 292803, 585516, 878052, 1170319, 1462231, 1753697, 2044628, 2334937, 2624535,
   2913333, 3201244, 3488179, 3774052, 4058776, 4342263, 4624427, 4905183, 5184445, 5462127,
   5738146, 6012416, 6284856, 6555381, 6823909, 7090358, 7354647, 7616697, 7876426, 8133756]

/-- `SINE_ROM[30..59]` (R104). -/
def sineRomMid : List Int :=
  [8388608, 8640905, 8890570, 9137527, 9381700, 9623016, 9861400, 10096781, 10329086, 10558244,
   10784187, 11006844, 11226149, 11442034, 11654434, 11863283, 12068519, 12270079, 12467901, 12661926,
   12852093, 13038346, 13220627, 13398880, 13573053, 13743091, 13908942, 14070557, 14227886, 14380881]

/-- `SINE_ROM[60..90]` (R104). -/
def sineRomHigh : List Int :=
  [14529495, 14673684, 14813402, 14948609, 15079262, 15205322, 15326749, 15443509, 15555564, 15662880,
   15765426, 15863169, 15956081, 16044131, 16127295, 16205546, 16278861, 16347217, 16410594, 16468971,
   16522332, 16570661, 16613941, 16652161, 16685309, 16713374, 16736348, 16754223, 16766996, 16774661,
   16777216]

/-- `SINE_ROM`, 91 entries in Q24 (R23, R104). -/
def sineRom : List Int := sineRomLow ++ (sineRomMid ++ sineRomHigh)

/-- `DIST_ROM[0..63]`: the squares of 1..64 (R108). -/
def distRomLow : List Nat :=
  [1, 4, 9, 16, 25, 36, 49, 64, 81, 100, 121, 144, 169, 196, 225, 256,
   289, 324, 361, 400, 441, 484, 529, 576, 625, 676, 729, 784, 841, 900, 961, 1024,
   1089, 1156, 1225, 1296, 1369, 1444, 1521, 1600, 1681, 1764, 1849, 1936, 2025, 2116, 2209, 2304,
   2401, 2500, 2601, 2704, 2809, 2916, 3025, 3136, 3249, 3364, 3481, 3600, 3721, 3844, 3969, 4096]

/-- `DIST_ROM[64..126]`: the squares of 65..127 (R108). -/
def distRomHigh : List Nat :=
  [4225, 4356, 4489, 4624, 4761, 4900, 5041, 5184, 5329, 5476, 5625, 5776, 5929, 6084, 6241, 6400,
   6561, 6724, 6889, 7056, 7225, 7396, 7569, 7744, 7921, 8100, 8281, 8464, 8649, 8836, 9025, 9216,
   9409, 9604, 9801, 10000, 10201, 10404, 10609, 10816, 11025, 11236, 11449, 11664, 11881, 12100, 12321, 12544,
   12769, 12996, 13225, 13456, 13689, 13924, 14161, 14400, 14641, 14884, 15129, 15376, 15625, 15876, 16129]

/-- `DIST_ROM[k-1] = k²` for k = 1..127 (R24, R108). -/
def distRom : List Nat := distRomLow ++ distRomHigh

/-- `FRACTAL_MAX_T` (R7). -/
def fractalMaxT : Nat := 64

end Sys2Proof.Machine
end

