-- ==== Sys2Proof/Machine/Generators.lean ====
section
/-! DEFINITION. SINE, DIST, GEN_RADIAL, GEN_INTERF and GEN_FRACTAL (45_generators.md). The arithmetic is on mathematical
integers, which R103 allows, and `asr` is the floor shift of R10. -/

namespace Sys2Proof.Machine

/-- `SINE_ROM[d]`. -/
def sineEntry (d : Nat) : Int := sineRom.getD d 0

/-- `sine` on 0..180: the table and its mirror (R105). -/
def sineHalf (d : Nat) : Int := if d ≤ 90 then sineEntry d else sineEntry (180 - d)

/-- `sine0` of R105, on 0..359: the second half is the first, negated. -/
def sineTurn (d : Nat) : Int := if d ≤ 180 then sineHalf d else -sineHalf (d - 180)

/-- `sine(d) = sine0(d mod 360)` (R105). -/
def sine (d : Int) : Int := sineTurn (d % 360).toNat

/-- How many thresholds stand before the first that exceeds `q`. -/
def thresholdsUpTo (q : Nat) : List Nat → Nat
  | [] => 0
  | threshold :: rest => bif Nat.ble threshold q then thresholdsUpTo q rest + 1 else 0

/-- `dist(q) = #{ k in 1..127 : DIST_ROM[k-1] <= q }` (R108): the table rises, so the thresholds that do not exceed `q` are
those before the first that does (`dist_eq_countP`). -/
def dist (q : Nat) : Nat := thresholdsUpTo q distRom

/-- `((a ^ b) & 1) = 1`: the low bits of two integers differ (R113, R115). -/
def lowBitsDiffer (a b : Int) : Bool := a % 2 != b % 2

/-- The strip of column `X` in bank `bank` (R111, R112): bit `k` is pixel row `Y = 8*bank + k`, at grid point
`(X - 42, Y - 24)`. -/
def packStrip (lit : Int → Int → Bool) (X bank : Nat) : Byte :=
  (List.range 8).foldl
    (fun acc k => if lit ((X : Int) - 42) (((8 * bank + k : Nat) : Int) - 24) then acc ||| (0x01#8 <<< k) else acc) 0x00#8

/-- `PACK(lit)` (R112): byte `X*6 + bank` is the strip of column `X` in bank `bank` (R39). -/
def pack (lit : Int → Int → Bool) : List Byte := (List.range 504).map fun j => packStrip lit (j / 6) (j % 6)

/-- `lit_radial(t; x, y)` (R113). -/
def litRadial (t : Nat) (x y : Int) : Bool :=
  let r2 := x * x + y * y
  let s := 256 + asr (sine (asr r2 3 + 8 * t)) 18
  let u := asr (x * s) 8 + t
  let v := asr (y * s) 8 + t
  lowBitsDiffer (asr u 2) (asr v 2)

/-- The two point sources at a time step. -/
structure Sources where
  s1x : Int
  s1y : Int
  s2x : Int
  s2y : Int
deriving DecidableEq, Repr

/-- `sources(t)` (R115). -/
def sources (t : Nat) : Sources :=
  { s1x := asr (30 * sine (2 * t)) 24
    s1y := asr (16 * sine (3 * t + 90)) 24
    s2x := asr (30 * sine (3 * t + 45)) 24
    s2y := asr (16 * sine (2 * t + 270)) 24 }

/-- The ring index of a grid point about a source: `dist` of the squared distance, in rings 4 pixels wide (R115). -/
def ring (sx sy x y : Int) : Int := asr (dist ((x - sx) * (x - sx) + (y - sy) * (y - sy)).toNat) 2

/-- `lit_interf(t; x, y)` (R115), for given sources. -/
def litInterfAt (p : Sources) (x y : Int) : Bool := lowBitsDiffer (ring p.s1x p.s1y x y) (ring p.s2x p.s2y x y)

/-- `lit_interf(t; x, y)` (R115). -/
def litInterf (t : Nat) (x y : Int) : Bool := litInterfAt (sources t) x y

/-- `step` of R117, the Q12 size of one pixel. -/
def fractalStep (t : Nat) : Int := asr (144 * (fractalMaxT - t)) 6

/-- `cr` of R117. -/
def fractalCr (t : Nat) (x : Int) : Int := -2048 + x * fractalStep t

/-- `ci` of R117. -/
def fractalCi (t : Nat) (y : Int) : Int := 0 + y * fractalStep t

/-- The iteration budget `N(t)` (R118). -/
def fractalBudget (t : Nat) : Nat := 8 + (t >>> 1)

/-- `in_cardioid` (R119). -/
def inCardioid (cr ci : Int) : Bool :=
  let X := cr - 1024
  let q := X * X + ci * ci
  decide (q * (q + X * 4096) < ci * ci * 2 ^ 22)

/-- `in_bulb2` (R119). -/
def inBulb2 (cr ci : Int) : Bool := decide ((cr + 4096) * (cr + 4096) + ci * ci < 2 ^ 20)

/-- The iteration of R120, `k` rounds from `(zr, zi)`: the escape test comes before the update. -/
def neverEscapes (cr ci : Int) : Nat → Int → Int → Bool
  | 0, _, _ => true
  | k + 1, zr, zi =>
    let zr2 := asr (zr * zr) 12
    let zi2 := asr (zi * zi) 12
    if zr2 + zi2 > 16384 then false
    else neverEscapes cr ci k (zr2 - zi2 + cr) (asr (zr * zi) 11 + ci)

/-- `lit_fractal(t; x, y)` (R120): the shortcuts first, then the iteration from 0. -/
def litFractal (t : Nat) (x y : Int) : Bool :=
  let cr := fractalCr t x
  let ci := fractalCi t y
  inCardioid cr ci || inBulb2 cr ci || neverEscapes cr ci (fractalBudget t) 0 0

/-- SINE (R106): accepted in either mode; no event, no state but the response. -/
def execSine (imm : BitVec 24) (s : State) : Host.Outcome State Fault Refusal :=
  .next (respond (.i32 (BitVec.ofInt 32 (sine (angle imm)))) s)

/-- DIST (R109). -/
def execDist (q : BitVec 24) (s : State) : Host.Outcome State Fault Refusal :=
  .next (respond (.u8 (BitVec.ofNat 8 (dist (squaredDistance q)))) s)

/-- GEN_RADIAL (R114). -/
def execGenRadial (t : BitVec 16) (s : State) : Host.Outcome State Fault Refusal :=
  .next (respond (.frame (pack (litRadial (timeStep t)))) s)

/-- GEN_INTERF (R116). -/
def execGenInterf (t : BitVec 16) (s : State) : Host.Outcome State Fault Refusal :=
  .next (respond (.frame (pack (litInterf (timeStep t)))) s)

/-- GEN_FRACTAL (R121): a time step above `FRACTAL_MAX_T` raises `E_TIME_RANGE`. -/
def execGenFractal (t : BitVec 16) (s : State) : Host.Outcome State Fault Refusal :=
  .next (if timeStep t > fractalMaxT then raise .timeRange s
    else respond (.frame (pack (litFractal (timeStep t)))) s)

end Sys2Proof.Machine
end

