-- ==== Sys2Proof/Machine/Lifecycle.lean ====
section
/-! DEFINITION. INIT and CLEAR (41_lifecycle.md). -/

namespace Sys2Proof.Machine

/-- The six configuration commands of INIT, in the order that is a hardware contract (R67, R68). -/
def initCommands (c : Cfg) : List Event :=
  [.cmd c.cmdFsExt, .cmd c.contrast, .cmd c.cmdTempco, .cmd c.cmdBias, .cmd c.cmdFsBasic, .cmd c.cmdDispNormal]

/-- INIT (R67). -/
def initBody (s : State) : State := clearBody { emit (initCommands s.cfg) s with mode := .ready }

/-- INIT (R67): accepted in either mode. -/
def execInit (s : State) : Host.Outcome State Fault Refusal := .next (respond .none (initBody s))

/-- CLEAR (R71). -/
def execClear (s : State) : Host.Outcome State Fault Refusal :=
  .next (whenReady (fun s => respond .none (clearBody s)) s)

end Sys2Proof.Machine
end

