-- ==== Sys2Proof/Machine/Power.lean ====
section
/-! DEFINITION. POWER_DOWN, WAKE_UP and BLINK (44_power_blink.md). -/

namespace Sys2Proof.Machine

/-- POWER_DOWN (R97): the device is cleared, the shadow is not; the cursor ends where it was. -/
def powerDownBody (s : State) : State :=
  emit [.cmd s.cfg.cmdFsPd] <| setCursorBody s.cur.col s.cur.row <| emitData (zeros 504) <|
    setCursorBody 0 0 s

/-- POWER_DOWN (R97). -/
def execPowerDown (s : State) : Host.Outcome State Fault Refusal :=
  .next (whenReady (fun s => respond .none (powerDownBody s)) s)

/-- WAKE_UP (R98). -/
def execWakeUp (s : State) : Host.Outcome State Fault Refusal :=
  .next (whenReady (fun s => respond .none (emit [.cmd s.cfg.cmdFsBasic] s)) s)

/-- One iteration of BLINK (R100): the complement of every shadow byte, one delay (R102), the shadow itself. -/
def blinkOnce (s : State) : State :=
  let inverted := emit [.delay s.cfg.blinkDelay] <| emitData ((shadow s).map fun b => ~~~b) <| setCursorBody 0 0 s
  emitData (shadow inverted) (setCursorBody 0 0 inverted)

/-- `for j in 1 .. n` of BLINK (R100). -/
def blinkLoop : Nat → State → State
  | 0, s => s
  | n + 1, s => blinkLoop n (blinkOnce s)

/-- BLINK (R100): with `n = 0` nothing happens. -/
def blinkBody (n : Nat) (s : State) : State :=
  if n = 0 then s else setCursorBody s.cur.col s.cur.row (blinkLoop n s)

/-- BLINK (R100). -/
def execBlink (n : BitVec 16) (s : State) : Host.Outcome State Fault Refusal :=
  .next (whenReady (fun s => respond .none (blinkBody (timeStep n) s)) s)

end Sys2Proof.Machine
end

