-- ==== Sys2Proof/Machine/Text.lean ====
section
/-! DEFINITION. PRINT, PRINT_CHAR, SET_CURSOR, NEW_LINE and SCROLL (42_text.md). -/

namespace Sys2Proof.Machine

/-- PRINT (R77): one byte at a time, each byte's effects complete before the next is read (R79). -/
def execPrint (text : List Byte) (s : State) : Host.Outcome State Fault Refusal :=
  .next (whenReady (fun s => respond .none (text.foldl printByte s)) s)

/-- PRINT_CHAR (R80): a byte that is not printable renders `?`, the newline byte too. -/
def execPrintChar (ch : Byte) (s : State) : Host.Outcome State Fault Refusal :=
  .next (whenReady (fun s => respond .none (printCharBody (glyphIndex ch) s)) s)

/-- SET_CURSOR (R74): out of range it is a silent no-op, no fault. -/
def execSetCursor (col row : Byte) (s : State) : Host.Outcome State Fault Refusal :=
  .next (whenReady (fun s => respond .none (setCursorBody col.toNat row.toNat s)) s)

/-- NEW_LINE (R87). -/
def execNewLine (s : State) : Host.Outcome State Fault Refusal :=
  .next (whenReady (fun s => respond .none (newLineBody s)) s)

/-- SCROLL (R89). -/
def execScroll (s : State) : Host.Outcome State Fault Refusal :=
  .next (whenReady (fun s => respond .none (scrollBody s)) s)

end Sys2Proof.Machine
end

