-- ==== Sys2Proof/Machine/Upload.lean ====
section
/-! DEFINITION. DRAW_BUFFER (43_upload.md). -/

namespace Sys2Proof.Machine

/-- The upload of a 504-byte frame (R92): vertical addressing, the stream, horizontal addressing, the verbatim copy. -/
def drawBufferBody (frame : List Byte) (s : State) : State :=
  setCursorBody 0 0 <| storeShadow frame <| emit [.cmd s.cfg.cmdFsBasic] <| emitData frame <|
    setCursorBody 0 0 <| emit [.cmd s.cfg.cmdFsVert] s

/-- DRAW_BUFFER (R92): the mode gate comes before the size check (R128), which comes before any device write (R93). -/
def execDrawBuffer (frame : List Byte) (s : State) : Host.Outcome State Fault Refusal :=
  .next (whenReady
    (fun s => if frame.length = 504 then respond .none (drawBufferBody frame s) else raise .frameSize s) s)

end Sys2Proof.Machine
end

