-- ==== Sys2Proof/Machine/Dispatch.lean ====
section
/-! DEFINITION. One arm for each request of the opcode map (30_encoding.md R58). -/

namespace Sys2Proof.Machine

def exec (i : Instr) (s : State) : Host.Outcome State Fault Refusal :=
  match i with
  | .init => Sys2Proof.Machine.execInit s
  | .clear => Sys2Proof.Machine.execClear s
  | .print text => Sys2Proof.Machine.execPrint text s
  | .printChar ch => Sys2Proof.Machine.execPrintChar ch s
  | .setCursor col row => Sys2Proof.Machine.execSetCursor col row s
  | .drawBuffer frame => Sys2Proof.Machine.execDrawBuffer frame s
  | .newLine => Sys2Proof.Machine.execNewLine s
  | .scroll => Sys2Proof.Machine.execScroll s
  | .powerDown => Sys2Proof.Machine.execPowerDown s
  | .wakeUp => Sys2Proof.Machine.execWakeUp s
  | .blink n => Sys2Proof.Machine.execBlink n s
  | .sine imm => Sys2Proof.Machine.execSine imm s
  | .dist q => Sys2Proof.Machine.execDist q s
  | .genRadial t => Sys2Proof.Machine.execGenRadial t s
  | .genInterf t => Sys2Proof.Machine.execGenInterf t s
  | .genFractal t => Sys2Proof.Machine.execGenFractal t s

end Sys2Proof.Machine
end

