-- ==== Sys2Proof/WellFormed.lean ====
section
/-! DEFINITION. What a well-formed operation and a well-formed configuration are. -/

namespace Sys2Proof

/-- An operation is well-formed when the field LEN, a u16, can hold the length of its byte sequence (R56). Every other
operand fills its field (R54, R55, R57), and an out-of-range coordinate, a frame of another length or a large time step is a
legal encoding that the operation itself answers (R54, R93, R121). -/
def Instr.wf : Instr → Bool
  | .init => true
  | .clear => true
  | .print text => decide (text.length < 65536)
  | .printChar _ => true
  | .setCursor _ _ => true
  | .drawBuffer frame => decide (frame.length < 65536)
  | .newLine => true
  | .scroll => true
  | .powerDown => true
  | .wakeUp => true
  | .blink _ => true
  | .sine _ => true
  | .dist _ => true
  | .genRadial _ => true
  | .genInterf _ => true
  | .genFractal _ => true

/-- R8: `CONTRAST` has bit 7 set, and a command byte with an OR-ed operand has zero bits where the operand goes. -/
def Cfg.wf (c : Cfg) : Bool :=
  c.contrast.getLsbD 7 && (c.cmdSetY.extractLsb' 0 3 == 0#3) && (c.cmdSetX.extractLsb' 0 7 == 0#7)

end Sys2Proof
end

