-- ==== Sys2Proof/Decode.lean ====
section
/-! DEFINITION. The decoder of R59, total on every word, request and byte sequence and rejecting by name; after it the
encoder, written from the format table of R53. -/

namespace Sys2Proof

/-- Why bits are not an operation. The first two are R59's `illegal`; the other two are not requests at all (R60). -/
inductive DecodeError where
  /-- `OP` is not in the opcode map (R58, R62). -/
  | unlistedOp (op : Byte)
  /-- The word's reserved field is not zero (R53, R62). -/
  | reservedBits (op : Byte)
  /-- The payload does not have the length its word announces (R60). -/
  | payloadLength (announced given : Nat)
  /-- A byte sequence ends inside a request (R63). -/
  | truncated
deriving DecidableEq, Repr

/-- What one word says: a whole operation, or a format-L operation that awaits `len` payload bytes (R56). -/
inductive Head where
  | whole (i : Instr)
  | print (len : BitVec 16)
  | drawBuffer (len : BitVec 16)
deriving DecidableEq, Repr

/-- `OP`, bits [7:0] (R53). -/
def opField (w : Word) : Byte := w.extractLsb' 0 8

/-- Bits [15:8]: `CH` of format K, `COL` of format C, reserved in formats L and T (R53). -/
def byte1Field (w : Word) : Byte := w.extractLsb' 8 8

/-- `ROW` of format C, bits [23:16] (R53). -/
def byte2Field (w : Word) : Byte := w.extractLsb' 16 8

/-- `LEN` of format L and `T` of format T, bits [31:16] (R55, R56). -/
def halfField (w : Word) : BitVec 16 := w.extractLsb' 16 16

/-- `IMM` of format S and `Q` of format U, bits [31:8] (R57). -/
def immField (w : Word) : BitVec 24 := w.extractLsb' 8 24

/-- `h` if the reserved field is zero, otherwise illegal (R59). -/
def ifZero {k : Nat} (reserved : BitVec k) (w : Word) (h : Head) : Except DecodeError Head :=
  if reserved = 0 then .ok h else .error (.reservedBits (opField w))

/-- `decode(word)` of R59. -/
def decodeWord (w : Word) : Except DecodeError Head :=
  match (opField w).toNat with
  | 0x01 => ifZero (w.extractLsb' 8 24) w (.whole .init)
  | 0x02 => ifZero (w.extractLsb' 8 24) w (.whole .clear)
  | 0x03 => ifZero (w.extractLsb' 8 8) w (.print (halfField w))
  | 0x04 => ifZero (w.extractLsb' 16 16) w (.whole (.printChar (byte1Field w)))
  | 0x05 => ifZero (w.extractLsb' 24 8) w (.whole (.setCursor (byte1Field w) (byte2Field w)))
  | 0x06 => ifZero (w.extractLsb' 8 8) w (.drawBuffer (halfField w))
  | 0x07 => ifZero (w.extractLsb' 8 24) w (.whole .newLine)
  | 0x08 => ifZero (w.extractLsb' 8 24) w (.whole .scroll)
  | 0x09 => ifZero (w.extractLsb' 8 24) w (.whole .powerDown)
  | 0x0A => ifZero (w.extractLsb' 8 24) w (.whole .wakeUp)
  | 0x0B => ifZero (w.extractLsb' 8 8) w (.whole (.blink (halfField w)))
  | 0x10 => .ok (.whole (.sine (immField w)))
  | 0x11 => .ok (.whole (.dist (immField w)))
  | 0x12 => ifZero (w.extractLsb' 8 8) w (.whole (.genRadial (halfField w)))
  | 0x13 => ifZero (w.extractLsb' 8 8) w (.whole (.genInterf (halfField w)))
  | 0x14 => ifZero (w.extractLsb' 8 8) w (.whole (.genFractal (halfField w)))
  | _ => .error (.unlistedOp (opField w))

/-- The payload bytes a word announces: `LEN` for a legal format-L word, none otherwise (R56, R63). -/
def payloadLen (w : Word) : Nat :=
  match decodeWord w with
  | .ok (.print len) => len.toNat
  | .ok (.drawBuffer len) => len.toNat
  | .ok (.whole _) => 0
  | .error _ => 0

/-- The operation a request carries, with its payload (R59, R60). An illegal word is illegal whatever stands behind it. -/
def decode (r : Request) : Except DecodeError Instr :=
  match decodeWord r.word with
  | .error e => .error e
  | .ok h =>
    if r.payload.length = payloadLen r.word then
      match h with
      | .whole i => .ok i
      | .print _ => .ok (.print r.payload)
      | .drawBuffer _ => .ok (.drawBuffer r.payload)
    else .error (.payloadLength (payloadLen r.word) r.payload.length)

/-- A word from four bytes, the least significant first (R43). -/
def wordOfBytes (b0 b1 b2 b3 : Byte) : Word := b3 ++ b2 ++ b1 ++ b0

/-- The four bytes of a word, the least significant first (R43). -/
def wordBytes (w : Word) : List Byte :=
  [w.extractLsb' 0 8, w.extractLsb' 8 8, w.extractLsb' 16 8, w.extractLsb' 24 8]

/-- The first request of a serialized stream and the bytes behind it (R43, R63): four bytes of word, then `LEN` payload
bytes if the word is a legal PRINT or DRAW_BUFFER. -/
def takeRequest : List Byte → Except DecodeError (Request × List Byte)
  | b0 :: b1 :: b2 :: b3 :: rest =>
    if payloadLen (wordOfBytes b0 b1 b2 b3) ≤ rest.length then
      .ok (⟨wordOfBytes b0 b1 b2 b3, rest.take (payloadLen (wordOfBytes b0 b1 b2 b3))⟩,
        rest.drop (payloadLen (wordOfBytes b0 b1 b2 b3)))
    else .error .truncated
  | _ => .error .truncated

/-- The first operation of a serialized stream and the bytes behind it (R43, R59, R63). -/
def decodeBytes (bs : List Byte) : Except DecodeError (Instr × List Byte) :=
  match takeRequest bs with
  | .error e => .error e
  | .ok (r, rest) =>
    match decode r with
    | .ok i => .ok (i, rest)
    | .error e => .error e

/-- The request of an operation (R53, R58, R60): each word is its fields from bit 31 down to bit 0. -/
def encode : Instr → Request
  | .init => ⟨0#24 ++ 0x01#8, []⟩
  | .clear => ⟨0#24 ++ 0x02#8, []⟩
  | .print text => ⟨BitVec.ofNat 16 text.length ++ 0#8 ++ 0x03#8, text⟩
  | .printChar ch => ⟨0#16 ++ ch ++ 0x04#8, []⟩
  | .setCursor col row => ⟨0#8 ++ row ++ col ++ 0x05#8, []⟩
  | .drawBuffer frame => ⟨BitVec.ofNat 16 frame.length ++ 0#8 ++ 0x06#8, frame⟩
  | .newLine => ⟨0#24 ++ 0x07#8, []⟩
  | .scroll => ⟨0#24 ++ 0x08#8, []⟩
  | .powerDown => ⟨0#24 ++ 0x09#8, []⟩
  | .wakeUp => ⟨0#24 ++ 0x0A#8, []⟩
  | .blink n => ⟨n ++ 0#8 ++ 0x0B#8, []⟩
  | .sine imm => ⟨imm ++ 0x10#8, []⟩
  | .dist q => ⟨q ++ 0x11#8, []⟩
  | .genRadial t => ⟨t ++ 0#8 ++ 0x12#8, []⟩
  | .genInterf t => ⟨t ++ 0#8 ++ 0x13#8, []⟩
  | .genFractal t => ⟨t ++ 0#8 ++ 0x14#8, []⟩

/-- A request as a transport serializes it: the word, least significant byte first, then the payload (R43, R60). -/
def Request.bytes (r : Request) : List Byte := wordBytes r.word ++ r.payload

/-- The request of an instruction numbered as spec/opcode_table.json numbers bits: the word is bits 31..0 of `w`, payload
byte `k` is bits 8k+39..8k+32, and the bits above `nbits` are zero (notes/assumptions/14.md). -/
def requestOfTableWord (nbits w : Nat) : Request :=
  ⟨BitVec.ofNat 32 (w % 2 ^ nbits),
    (List.range (payloadLen (BitVec.ofNat 32 (w % 2 ^ nbits)))).map
      fun k => BitVec.ofNat 8 ((w % 2 ^ nbits) >>> (8 * k + 32))⟩

/-- The operation the decoder reads from those bits, laid out as a transport serializes them (R43). -/
def decodeTableWord (nbits w : Nat) : Option Instr :=
  match decodeBytes (requestOfTableWord nbits w).bytes with
  | .ok (i, _) => some i
  | .error _ => none

end Sys2Proof
end

