-- ==== Sys2Proof/Machine/Port.lean ====
section
/-! DEFINITION. The request port (30_encoding.md R52, R60, R63): what the block accepts next, and how the host presents a
request. -/

namespace Sys2Proof.Machine

/-- What stands at the head of the port. -/
inductive Accepted where
  /-- No request is presented: the block waits (R152). -/
  | nothing
  /-- The request decodes to an operation; the state has it taken from the port. -/
  | run (i : Instr) (s : State)
  /-- The word is `illegal` (R59); the state has the request taken from the port, its payload discarded (R60). -/
  | illegal (s : State)
  /-- The payload does not have the length its word announces: this is no request (R60). -/
  | malformed

/-- Accepts the oldest request presented (R52): word and payload leave the port together (R60). -/
def accept (s : State) : Accepted :=
  match s.port with
  | [] => .nothing
  | r :: rest =>
    match decode r with
    | .ok i => .run i { s with port := rest }
    | .error (.unlistedOp _) => .illegal { s with port := rest }
    | .error (.reservedBits _) => .illegal { s with port := rest }
    | .error (.payloadLength _ _) => .malformed
    | .error .truncated => .malformed

/-- A VALUE as a transport serializes it: an i32 little-endian (R43), bytes in their order. -/
def Value.bytes : Value → List Byte
  | .none => []
  | .i32 v => wordBytes v
  | .u8 v => [v]
  | .frame f => f

/-- The host presents one more request, after those already waiting (R52, R141). -/
def present (r : Request) (s : State) : State := { s with port := s.port ++ [r] }

/-- `r` put at the head of the port, to be accepted next. -/
def presentNext (r : Request) (s : State) : State := { s with port := r :: s.port }

end Sys2Proof.Machine
end

