-- ==== Sys2Proof/Machine/Step.lean ====
section
/-! DEFINITION. One step of the block: one request (00_scope.md R9). -/

namespace Sys2Proof.Machine

/-- One step: the oldest request on the port is accepted, decoded and run to completion, and its response is returned (R9).
An illegal word raises `E_ILLEGAL_OP` (R59, R125). With nothing on the port the block waits (R152). -/
def step (s : State) : Host.Outcome State Fault Refusal :=
  if s.cfg.wf then
    match accept s with
    | .nothing => .next s
    | .run i s' => exec i s'
    | .illegal s' => .next (raise .illegalOp s')
    | .malformed => .refused .malformedRequest
  else .refused .illFormedConfiguration

/-- `s` with the request of those bits presented next (notes/assumptions/14.md). -/
def State.withFetchWord (s : State) (nbits w : Nat) : State := presentNext (requestOfTableWord nbits w) s

end Sys2Proof.Machine
end

