-- ==== Sys2Proof/Machine/Assembly.lean ====
section
/-! DEFINITION. The assembler syntax and the pseudo-instructions (30_encoding.md R64, R65): one line of text to the requests
it stands for, and what a host does with them. What R64 leaves open of the text's shape is in notes/assumptions/20.md. -/

namespace Sys2Proof.Machine

/-- What a line assembles to: one request, or a `show_*` pair, whose second request carries the VALUE of the first's
response (R65). -/
inductive AsmLine where
  | one (r : Request)
  | showFrame (generate : Instr)
deriving DecidableEq, Repr

/-- Drops leading blanks. -/
def skipBlanks : List Char → List Char
  | c :: cs => if c = ' ' ∨ c = '\t' then skipBlanks cs else c :: cs
  | [] => []

/-- Nothing is left of the line but blanks and a `;` comment. -/
def atLineEnd (cs : List Char) : Bool :=
  match skipBlanks cs with
  | [] => true
  | c :: _ => c == ';'

/-- The longest run of name characters, and what is behind it. -/
def takeName : List Char → List Char × List Char
  | c :: cs =>
    if c.isAlphanum || c == '_' || c == '.' then (c :: (takeName cs).1, (takeName cs).2) else ([], c :: cs)
  | [] => ([], [])

/-- The value of one hexadecimal digit. -/
def hexDigit (c : Char) : Option Nat :=
  if '0' ≤ c ∧ c ≤ '9' then some (c.toNat - 48)
  else if 'a' ≤ c ∧ c ≤ 'f' then some (c.toNat - 87)
  else if 'A' ≤ c ∧ c ≤ 'F' then some (c.toNat - 55)
  else none

/-- A numeral in the given base from its digits; none for an empty or foreign one. -/
def numeral (base : Nat) : Nat → List Char → Option Nat
  | acc, [] => some acc
  | acc, c :: cs =>
    match hexDigit c with
    | some d => if d < base then numeral base (acc * base + d) cs else none
    | none => none

/-- A number word: `0x` and hexadecimal digits, or decimal digits. -/
def numberWord : List Char → Option Nat
  | '0' :: 'x' :: c :: cs => numeral 16 0 (c :: cs)
  | c :: cs => numeral 10 0 (c :: cs)
  | [] => none

/-- An integer operand, with an optional minus sign, and what is behind it. -/
def takeInt (cs : List Char) : Option (Int × List Char) :=
  match skipBlanks cs with
  | '-' :: rest =>
    match numberWord (takeName rest).1 with
    | some n => some (-(n : Int), (takeName rest).2)
    | none => none
  | rest =>
    match numberWord (takeName rest).1 with
    | some n => some ((n : Int), (takeName rest).2)
    | none => none

/-- An integer operand in `lo .. hi`. -/
def takeRanged (lo hi : Int) (cs : List Char) : Option (Int × List Char) :=
  match takeInt cs with
  | some (n, rest) => if lo ≤ n ∧ n ≤ hi then some (n, rest) else none
  | none => none

/-- `CH`: a character literal or a byte 0..255 (R64). -/
def takeChar (cs : List Char) : Option (Byte × List Char) :=
  match skipBlanks cs with
  | '\'' :: c :: '\'' :: rest => if c.toNat < 128 then some (BitVec.ofNat 8 c.toNat, rest) else none
  | rest =>
    match takeRanged 0 255 rest with
    | some (n, rest) => some (BitVec.ofInt 8 n, rest)
    | none => none

/-- The bytes of a string up to its closing quote: `\n` is 0x0A, `\xHH` any byte (R64). -/
def stringBytes : List Char → Option (List Byte × List Char)
  | '"' :: rest => some ([], rest)
  | '\\' :: 'n' :: rest =>
    match stringBytes rest with
    | some (bs, rest) => some (0x0A#8 :: bs, rest)
    | none => none
  | '\\' :: 'x' :: h :: l :: rest =>
    match hexDigit h, hexDigit l, stringBytes rest with
    | some h, some l, some (bs, rest) => some (BitVec.ofNat 8 (16 * h + l) :: bs, rest)
    | _, _, _ => none
  | '\\' :: _ => none
  | c :: rest =>
    match stringBytes rest with
    | some (bs, rest) => if c.toNat < 128 then some (BitVec.ofNat 8 c.toNat :: bs, rest) else none
    | none => none
  | [] => none

/-- STRING: a double-quoted string (R64). -/
def takeString (cs : List Char) : Option (List Byte × List Char) :=
  match skipBlanks cs with
  | '"' :: rest => stringBytes rest
  | _ => none

/-- The comma between two operands. -/
def takeComma (cs : List Char) : Option (List Char) :=
  match skipBlanks cs with
  | ',' :: rest => some rest
  | _ => none

/-- The rest of a `bytes( … )` list behind its opening parenthesis, for at most as many numbers as `fuel`. DESIGN CHOICE
(notes/assumptions/20.md): R64 does not say whether `bytes()` with no byte is legal; here it assembles to none. The request
with `LEN = 0` is presented by `.word 0x00000006` or by its word. -/
def byteList : Nat → List Char → Option (List Byte × List Char)
  | 0, _ => none
  | fuel + 1, cs =>
    match takeRanged 0 255 cs with
    | none => none
    | some (n, rest) =>
      match skipBlanks rest with
      | ')' :: rest => some ([BitVec.ofInt 8 n], rest)
      | ',' :: rest =>
        match byteList fuel rest with
        | some (bs, rest) => some (BitVec.ofInt 8 n :: bs, rest)
        | none => none
      | _ => none

/-- FRAME: a label of a frame, or `bytes(...)` (R64). -/
def takeFrame (labels : List (List Char × List Byte)) (cs : List Char) : Option (List Byte × List Char) :=
  match takeName (skipBlanks cs) with
  | (['b', 'y', 't', 'e', 's'], '(' :: rest) => byteList (rest.length + 1) rest
  | (name, rest) =>
    match labels.lookup name with
    | some frame => some (frame, rest)
    | none => none

/-- A well-formed operation, if nothing but a comment is behind its operands. -/
def finish (i : Instr) (rest : List Char) : Option AsmLine :=
  if atLineEnd rest && i.wf then some (.one (encode i)) else none

/-- A format-T line: its operand 0..65535 (R64). -/
def timeLine (make : BitVec 16 → Instr) (cs : List Char) : Option AsmLine :=
  match takeRanged 0 65535 cs with
  | some (n, rest) => finish (make (BitVec.ofInt 16 n)) rest
  | none => none

/-- A `show_*` line (R65). -/
def showLine (make : BitVec 16 → Instr) (cs : List Char) : Option AsmLine :=
  match takeRanged 0 65535 cs with
  | some (n, rest) => if atLineEnd rest then some (.showFrame (make (BitVec.ofInt 16 n))) else none
  | none => none

/-- The operands of the mnemonic `name` (R64), the pseudo-instructions (R65), and `.word`, which 95_test_vectors.md P3 writes
for a word without a mnemonic. -/
def assembleOperands (labels : List (List Char × List Byte)) (name : String) (cs : List Char) : Option AsmLine :=
  if name = "init" then finish .init cs
  else if name = "clear" then finish .clear cs
  else if name = "new_line" then finish .newLine cs
  else if name = "scroll" then finish .scroll cs
  else if name = "power_down" then finish .powerDown cs
  else if name = "wake_up" then finish .wakeUp cs
  else if name = "home" then finish (.setCursor 0 0) cs
  else if name = "print" then (takeString cs).bind fun p => finish (.print p.1) p.2
  else if name = "println" then (takeString cs).bind fun p => finish (.print (p.1 ++ [0x0A#8])) p.2
  else if name = "print_char" then (takeChar cs).bind fun p => finish (.printChar p.1) p.2
  else if name = "set_cursor" then
    (takeRanged 0 255 cs).bind fun c => (takeComma c.2).bind fun rest => (takeRanged 0 255 rest).bind fun r =>
      finish (.setCursor (BitVec.ofInt 8 c.1) (BitVec.ofInt 8 r.1)) r.2
  else if name = "draw_buffer" then (takeFrame labels cs).bind fun p => finish (.drawBuffer p.1) p.2
  else if name = "blink" then timeLine .blink cs
  else if name = "sine" then
    (takeRanged (-8388608) 8388607 cs).bind fun p => finish (.sine (BitVec.ofInt 24 p.1)) p.2
  else if name = "dist" then
    (takeRanged 0 16777215 cs).bind fun p => finish (.dist (BitVec.ofInt 24 p.1)) p.2
  else if name = "gen_radial" then timeLine .genRadial cs
  else if name = "gen_interf" then timeLine .genInterf cs
  else if name = "gen_fractal" then timeLine .genFractal cs
  else if name = "show_radial" then showLine .genRadial cs
  else if name = "show_interf" then showLine .genInterf cs
  else if name = "show_fractal" then showLine .genFractal cs
  else if name = ".word" then
    (takeRanged 0 4294967295 cs).bind fun p =>
      if atLineEnd p.2 then some (.one ⟨BitVec.ofInt 32 p.1, []⟩) else none
  else none

/-- One line of assembly text; `labels` names the frames a line may use (R64). -/
def assembleLine (labels : List (List Char × List Byte)) (line : List Char) : Option AsmLine :=
  assembleOperands labels (String.ofList (takeName (skipBlanks line)).1) (takeName (skipBlanks line)).2

/-- The frame the last response carries. -/
def lastFrame (s : State) : Option (List Byte) :=
  match s.responses.getLast? with
  | some ⟨_, _, .frame f⟩ => some f
  | _ => none

/-- A host that has nothing else waiting issues a line: it presents the request and takes one step; for `show_*` it then
presents the frame of the response to DRAW_BUFFER (R65, R141), and with no frame in the response it stops there. -/
def issue (line : AsmLine) (s : State) : Host.Outcome State Fault Refusal :=
  match line with
  | .one r => step (presentNext r s)
  | .showFrame g =>
    match step (presentNext (encode g) s) with
    | .next s' =>
      match lastFrame s' with
      | some f => step (presentNext (encode (.drawBuffer f)) s')
      | none => .next s'
    | .fault r => .fault r
    | .refused r => .refused r

end Sys2Proof.Machine
end

