-- ==== Sys2Proof/Machine/Device.lean ====
section
/-! DEFINITION. The reference model of the attached controller (60_exceptions.md R143 to R149). It is outside the block: no
step reads it, and it only gives the events of `LOG` a meaning for derived properties (10_state.md R28;
notes/assumptions/16.md). -/

namespace Sys2Proof.Machine

/-- The reference device's state (R143). `DRAM[bank][col]` is `dram.read (84*bank + col)`. -/
structure Device where
  dram : Memory
  /-- The pointer's column. -/
  x    : Fin 84
  /-- The pointer's bank. -/
  y    : Fin 6
  /-- Power-down. -/
  pd   : Bool
  /-- Vertical addressing. -/
  v    : Bool
  /-- Extended instruction set. -/
  h    : Bool
  /-- Display control `D`. -/
  d    : Bool
  /-- Display control `E`. -/
  e    : Bool
  vop  : BitVec 7
  tc   : BitVec 2
  bs   : BitVec 3
deriving DecidableEq, Repr

/-- Basic-set commands (R145); the values and codes R145 leaves unspecified answer none (U16). -/
def Device.basicCommand (b : Byte) (dev : Device) : Option Device :=
  if b.extractLsb' 3 5 = 0b00001#5 ∧ b.getLsbD 1 = false then
    some { dev with d := b.getLsbD 2, e := b.getLsbD 0 }
  else if b.extractLsb' 3 5 = 0b01000#5 then
    if hy : (b.extractLsb' 0 3).toNat < 6 then some { dev with y := ⟨(b.extractLsb' 0 3).toNat, hy⟩ } else none
  else if b.getLsbD 7 = true then
    if hx : (b.extractLsb' 0 7).toNat < 84 then some { dev with x := ⟨(b.extractLsb' 0 7).toNat, hx⟩ } else none
  else none

/-- Extended-set commands (R146); other codes answer none (U16). -/
def Device.extendedCommand (b : Byte) (dev : Device) : Option Device :=
  if b.extractLsb' 2 6 = 0b000001#6 then some { dev with tc := b.extractLsb' 0 2 }
  else if b.extractLsb' 3 5 = 0b00010#5 then some { dev with bs := b.extractLsb' 0 3 }
  else if b.getLsbD 7 = true then some { dev with vop := b.extractLsb' 0 7 }
  else none

/-- A command byte: function set in either instruction set, 0x00 a no-op (R144), otherwise the command of the selected
set. A function set writes `PD` whichever request emits it, so DRAW_BUFFER's 0x22 and 0x20 clear it as WAKE_UP's 0x20 does
(DEDUCED, notes/assumptions/21.md: R144 against R150's last sentence). -/
def Device.command (b : Byte) (dev : Device) : Option Device :=
  if b.extractLsb' 3 5 = 0b00100#5 then
    some { dev with pd := b.getLsbD 2, v := b.getLsbD 1, h := b.getLsbD 0 }
  else if b = 0x00#8 then some dev
  else if dev.h then dev.extendedCommand b else dev.basicCommand b

/-- The pointer after a data write with `V = 0` (R147). -/
def Device.stepRight (dev : Device) : Device :=
  if hx : dev.x.val + 1 < 84 then { dev with x := ⟨dev.x.val + 1, hx⟩ }
  else if hy : dev.y.val + 1 < 6 then { dev with x := 0, y := ⟨dev.y.val + 1, hy⟩ }
  else { dev with x := 0, y := 0 }

/-- The pointer after a data write with `V = 1` (R148). -/
def Device.stepDown (dev : Device) : Device :=
  if hy : dev.y.val + 1 < 6 then { dev with y := ⟨dev.y.val + 1, hy⟩ }
  else if hx : dev.x.val + 1 < 84 then { dev with y := 0, x := ⟨dev.x.val + 1, hx⟩ }
  else { dev with y := 0, x := 0 }

/-- A data byte: `DRAM[Y][X] <- b`, then the pointer moves (R147, R148). -/
def Device.data (b : Byte) (dev : Device) : Device :=
  let written := { dev with dram := dev.dram.write (offset dev.x dev.y) b }
  if dev.v then written.stepDown else written.stepRight

/-- One event of `LOG`; a delay leaves the device alone. -/
def Device.receive (dev : Device) : Event → Option Device
  | .cmd b => dev.command b
  | .dat b => some (dev.data b)
  | .delay _ => some dev

/-- The device after a sequence of events; none once an event's effect is unspecified. -/
def Device.run : Device → List Event → Option Device
  | dev, [] => some dev
  | dev, ev :: evs => (dev.receive ev).bind fun dev' => Device.run dev' evs

/-- The displayed pixel at screen column `c` and pixel row `y`, true for dark (R149). With `PD = 1` the panel shows nothing;
with `PD = 0` and any display control but `D = 1, E = 0`, R149 says nothing and the answer is none. -/
def Device.pixel (dev : Device) (c : Fin 84) (y : Fin 48) : Option Bool :=
  if dev.pd then some false
  else if dev.d = true ∧ dev.e = false then some ((dev.dram.read (84 * (y.val / 8) + c.val)).getLsbD (y.val % 8))
  else none

/-- R150's last sentence, word for word, as a rule on requests: in power-save from a POWER_DOWN until the next WAKE_UP or
INIT. It is what the spec says of `PD` over a run, beside what the commands do to `pd` (`Device.command`, R144). A READY
block's requests make the two agree but for a DRAW_BUFFER that completes while the device is in power-save, where R92
with R144 clear `pd` (notes/assumptions/21.md). -/
def powerSaveAfter (i : Instr) (before : Bool) : Bool :=
  match i with
  | .powerDown => true
  | .wakeUp => false
  | .init => false
  | _ => before

/-- The device's pointer and modes are what the rest of the API assumes (R29, R150): horizontal addressing, basic set, the
pointer at the cursor. -/
def Device.Tracks (dev : Device) (s : State) : Prop :=
  dev.v = false ∧ dev.h = false ∧ dev.x = s.cur.col ∧ dev.y = s.cur.row

/-- R51: `DRAM[r][c] = SH[84r + c]` for every r and c, and the device pointer equals `CUR`. -/
def Device.Coherent (dev : Device) (s : State) : Prop :=
  dev.Tracks s ∧ ∀ (c : Fin 84) (r : Fin 6), dev.dram.read (offset c r) = s.sh.read (offset c r)

end Sys2Proof.Machine
end

