-- ==== Sys2Proof/Safety.lean ====
section
/-! DEFINITION. What a claim about the block may take as its premise: the invariant of its states, and the run of a request
sequence (60_exceptions.md R131, R142). -/

namespace Sys2Proof

/-- What holds of every state a run reaches, beyond what the types say (`CUR` in range, R17): the configuration is
well-formed (R8); the shadow memory is in its canonical form, inside 0..503 (R19, R35); `STATUS` has its reserved bits zero
and holds one of the codes 0..4 (R22, R125); and before INIT nothing has been drawn, moved or emitted (R66, R151). -/
structure Machine.State.Inv (s : Machine.State) : Prop where
  cfg    : s.cfg.wf = true
  sh     : s.sh.wf = true
  status : s.status.toNat ≤ 4
  before : s.mode = .uninit → s.sh = [] ∧ s.cur = ⟨0, 0⟩ ∧ s.log = []

/-- A run (R142): the requests are presented, and the block takes one step for each. -/
def Machine.runRequests (rs : List Request) (s : Machine.State) :
    Host.Outcome Machine.State Machine.Fault Machine.Refusal :=
  core.run (s.port.length + rs.length) { s with port := s.port ++ rs }

/-- The premise of R131: no request up to here has faulted. -/
def Machine.State.faultFree (s : Machine.State) : Bool := Machine.errField s.status == 0#3

end Sys2Proof
end

