-- ==== Sys2Proof/Certificates/Slice0/Obligations.lean ====
section
/-! DEFINITION. The statements for the provers. Each docstring names the rules of spec/ it comes from. The helpers under
`Sys2Proof.Claims` write the rules' own formulas, apart from the model's definitions. -/

open Sys2Proof Sys2Proof.Machine

namespace Sys2Proof.Claims

/-- The responses once a request has succeeded with `v` (R61): `STATUS` with its reserved bits zero, `FAULT = 0`. -/
def answered (s : State) (v : Value) : List Response := s.responses ++ [⟨s.status &&& 0x07#8, 0#3, v⟩]

/-- `STATUS` once a fault with this code is recorded (R22, R126): only where `ERR` was 0. -/
def recorded (status : Byte) (code : BitVec 3) : Byte :=
  if status.extractLsb' 0 3 = 0#3 then status.extractLsb' 3 5 ++ code else status

/-- The state once a request has raised this code (R126). -/
def faulted (code : BitVec 3) (s : State) : State :=
  { s with status := recorded s.status code
           responses := s.responses ++ [⟨recorded s.status code &&& 0x07#8, code, .none⟩] }

/-- The fields no successful request of a READY block writes, except its response. -/
def Kept (s t : State) : Prop := t.mode = s.mode ∧ t.cfg = s.cfg ∧ t.status = s.status ∧ t.port = s.port

/-- The two positioning commands, row first (R73, R75). -/
def setAt (c : Cfg) (col row : Nat) : List Event :=
  [.cmd (c.cmdSetY ||| BitVec.ofNat 8 row), .cmd (c.cmdSetX ||| BitVec.ofNat 8 col)]

/-- `emit Dat(b)` for each byte. -/
def data (bs : List Byte) : List Event := bs.map Event.dat

/-- The 504 shadow bytes in index order. -/
def shadowBytes (s : State) : List Byte := (List.range 504).map s.sh.read

/-- The shadow once scrolled (R91). -/
def scrolled (sh : Nat → Byte) (i : Nat) : Byte := if i < 420 then sh (i + 84) else 0x00#8

/-- SCROLL_BODY's events (R88), from the shadow before the scroll, ending at `(col, row)`. -/
def scrollLog (c : Cfg) (sh : Nat → Byte) (col row : Nat) : List Event :=
  setAt c 0 0 ++ data ((List.range 504).map (scrolled sh)) ++ setAt c col row

/-- The linear position of the cursor, `p = 84*CUR.row + CUR.col` (R84). -/
def position (s : State) : Nat := 84 * s.cur.row.val + s.cur.col.val

/-- The five glyph columns of a printable byte (R25). -/
def glyphColumns (c : Cfg) (ch : Byte) : List Byte := (c.glyph.toList.getD (ch.toNat - 0x20) default).toList

/-- The text engine in R84's linear form: position, shadow, and the events R81, R82, R86 and R88 give. -/
structure Linear where
  p      : Nat
  sh     : Nat → Byte
  events : List Event

/-- The engine at a state of the block. -/
def Linear.start (s : State) : Linear := ⟨position s, s.sh.read, []⟩

/-- The scroll of R84: the block scrolls and `p <- 420`; the scroll's own events end in column `col` of row 4 (R88). -/
def Linear.scroll (c : Cfg) (col : Nat) (l : Linear) : Linear :=
  ⟨420, scrolled l.sh, l.events ++ (scrollLog c l.sh col 4 ++ setAt c 0 5)⟩

/-- A glyph byte (R84): written at `SH[p]`, then `p + 1`, and a scroll if that is 504. -/
def Linear.byte (c : Cfg) (l : Linear) (b : Byte) : Linear :=
  if l.p + 1 = 504 then
    Linear.scroll c 0 ⟨l.p, fun i => if i = l.p then b else l.sh i, l.events ++ [.dat b]⟩
  else
    ⟨l.p + 1, fun i => if i = l.p then b else l.sh i, l.events ++ (.dat b :: setAt c ((l.p + 1) % 84) ((l.p + 1) / 84))⟩

/-- A newline (R84). -/
def Linear.newline (c : Cfg) (l : Linear) : Linear :=
  if 420 ≤ l.p then Linear.scroll c (l.p % 84) l
  else ⟨84 * (l.p / 84 + 1), l.sh, l.events ++ setAt c 0 (l.p / 84 + 1)⟩

/-- A printable byte: its five glyph columns and one blank spacer (R81). -/
def Linear.char (c : Cfg) (ch : Byte) (l : Linear) : Linear :=
  (glyphColumns c ch ++ [0x00#8]).foldl (Linear.byte c) l

/-- One byte of text by its class (R78). -/
def Linear.textByte (c : Cfg) (l : Linear) (b : Byte) : Linear :=
  if 0x20 ≤ b.toNat ∧ b.toNat ≤ 0x7E then l.char c b else if b.toNat = 0x0A then l.newline c else l.char c 0x3F#8

/-- A text (R77). -/
def Linear.text (c : Cfg) (bs : List Byte) (l : Linear) : Linear := bs.foldl (Linear.textByte c) l

/-- `t` is `s` with the text engine run from `s` to `l`, answered. -/
def RunsTo (s t : State) (l : Linear) : Prop :=
  Kept s t ∧ position t = l.p ∧ (∀ i, i < 504 → t.sh.read i = l.sh i) ∧ t.log = s.log ++ l.events ∧
    t.responses = answered s .none

/-- The pixel of a frame at screen column `X` and pixel row `Y` (R39, R41). -/
def framePixel (f : List Byte) (X Y : Nat) : Bool := (f.getD (6 * X + Y / 8) 0x00#8).getLsbD (Y % 8)

/-- A frame shows a predicate over the grid of R111, as PACK packs it (R112). -/
def Shows (f : List Byte) (lit : Int → Int → Bool) : Prop :=
  f.length = 504 ∧ ∀ X Y : Nat, X < 84 → Y < 48 → framePixel f X Y = lit ((X : Int) - 42) ((Y : Int) - 24)

/-- R113, with `a >> k` written as the floor quotient by `2^k` (R10). -/
def radialLit (t : Nat) (x y : Int) : Bool :=
  let scale := 256 + sine ((x * x + y * y) / 8 + 8 * t) / 262144
  decide ((x * scale / 256 + t) / 4 % 2 ≠ (y * scale / 256 + t) / 4 % 2)

/-- `dist` as R108's closed form. -/
def rootDistance (q : Nat) : Nat := min 127 (Nat.sqrt q)

/-- R115. -/
def interfLit (t : Nat) (x y : Int) : Bool :=
  let s1x := 30 * sine (2 * t) / 16777216
  let s1y := 16 * sine (3 * t + 90) / 16777216
  let s2x := 30 * sine (3 * t + 45) / 16777216
  let s2y := 16 * sine (2 * t + 270) / 16777216
  decide (rootDistance ((x - s1x) ^ 2 + (y - s1y) ^ 2).toNat / 4 % 2 ≠
    rootDistance ((x - s2x) ^ 2 + (y - s2y) ^ 2).toNat / 4 % 2)

/-- R117: the Q12 point of a grid coordinate, about a centre. -/
def fractalPoint (centre : Int) (t : Nat) (k : Int) : Int := centre + k * (144 * (64 - (t : Int)) / 64)

/-- R119. -/
def insideByShortcut (cr ci : Int) : Bool :=
  let X := cr - 1024
  let q := X ^ 2 + ci ^ 2
  decide (q * (q + X * 4096) < ci ^ 2 * 4194304) || decide ((cr + 4096) ^ 2 + ci ^ 2 < 1048576)

/-- The rounds of R120 left to run from `(zr, zi)`: true if none of them escapes. -/
def staysInside (cr ci : Int) : Nat → Int → Int → Bool
  | 0, _, _ => true
  | k + 1, zr, zi =>
    decide (zr ^ 2 / 4096 + zi ^ 2 / 4096 ≤ 16384) &&
      staysInside cr ci k (zr ^ 2 / 4096 - zi ^ 2 / 4096 + cr) (zr * zi / 2048 + ci)

/-- R118, R120. -/
def fractalLit (t : Nat) (x y : Int) : Bool :=
  let cr := fractalPoint (-2048) t x
  let ci := fractalPoint 0 t y
  insideByShortcut cr ci || staysInside cr ci (8 + t / 2) 0 0

/-- The default command bytes (R7), with a contrast byte the extended set reads as a Vop command (R8). -/
def DefaultCommands (c : Cfg) : Prop :=
  c.contrast.getLsbD 7 = true ∧ c = Cfg.withDefaults c.contrast c.blinkDelay c.glyph

/-- The requests of R66's gate: the DRV requests except INIT. -/
def gated : Instr → Bool
  | .clear | .print _ | .printChar _ | .setCursor _ _ | .drawBuffer _ | .newLine | .scroll | .powerDown | .wakeUp
  | .blink _ => true
  | .init | .sine _ | .dist _ | .genRadial _ | .genInterf _ | .genFractal _ => false

/-- The GEN requests (R26, R66). -/
def generates : Instr → Bool
  | .sine _ | .dist _ | .genRadial _ | .genInterf _ | .genFractal _ => true
  | _ => false

/-- The requests after which R51's coherence still holds. -/
def keepsCoherence : Instr → Bool
  | .init | .clear | .print _ | .printChar _ | .setCursor _ _ | .newLine | .scroll => true
  | _ => false

end Sys2Proof.Claims

open Sys2Proof.Claims

/-! ### Encoding (30_encoding.md) -/

/-- R53 to R58: one word of each row of the opcode map, and the signed, saturated and out-of-range operands, decode to the
operation the format table gives. -/
def Obligations.SpecWordsDecode : Prop :=
  decode ⟨0x00000001#32, []⟩ = .ok .init ∧ decode ⟨0x00000002#32, []⟩ = .ok .clear ∧
  decode ⟨0x00020003#32, [0x48#8, 0x69#8]⟩ = .ok (.print [0x48#8, 0x69#8]) ∧
  decode ⟨0x00004104#32, []⟩ = .ok (.printChar 0x41#8) ∧
  decode ⟨0x00020A05#32, []⟩ = .ok (.setCursor 10#8 2#8) ∧
  decode ⟨0x00FFFF05#32, []⟩ = .ok (.setCursor 255#8 255#8) ∧
  decode ⟨0x00030006#32, [1#8, 2#8, 3#8]⟩ = .ok (.drawBuffer [1#8, 2#8, 3#8]) ∧
  decode ⟨0x00000007#32, []⟩ = .ok .newLine ∧ decode ⟨0x00000008#32, []⟩ = .ok .scroll ∧
  decode ⟨0x00000009#32, []⟩ = .ok .powerDown ∧ decode ⟨0x0000000A#32, []⟩ = .ok .wakeUp ∧
  decode ⟨0x0003000B#32, []⟩ = .ok (.blink 3#16) ∧
  decode ⟨0xFFFFA610#32, []⟩ = .ok (.sine (BitVec.ofInt 24 (-90))) ∧
  decode ⟨0x80000010#32, []⟩ = .ok (.sine (BitVec.ofInt 24 (-8388608))) ∧
  decode ⟨0x00006411#32, []⟩ = .ok (.dist 100#24) ∧ decode ⟨0xFFFFFF11#32, []⟩ = .ok (.dist 16777215#24) ∧
  decode ⟨0xFFFF0012#32, []⟩ = .ok (.genRadial 65535#16) ∧ decode ⟨0x00000013#32, []⟩ = .ok (.genInterf 0#16) ∧
  decode ⟨0x00400014#32, []⟩ = .ok (.genFractal 64#16)

/-- R53 to R60: decoding the request of a well-formed operation gives the operation back, with every operand. -/
def Obligations.DecodeOfEncode : Prop := ∀ i : Instr, i.wf = true → decode (encode i) = .ok i

/-- R58 to R60: every request the decoder accepts is the request of the operation it gives, and that operation is
well-formed: no two words mean one operation. -/
def Obligations.EncodeOfDecode : Prop := ∀ (r : Request) (i : Instr), decode r = .ok i → encode i = r ∧ i.wf = true

/-- R43, R63: the operation and the rest come back from a serialized stream, whatever stands behind the request. -/
def Obligations.SerializedStreamRoundTrip : Prop :=
  ∀ (i : Instr) (rest : List Byte), i.wf = true → decodeBytes ((encode i).bytes ++ rest) = .ok (i, rest)

/-- R59, R62: a word is illegal exactly if its `OP` is not in the opcode map or its reserved field is not zero. -/
def Obligations.IllegalWordsExactly : Prop :=
  ∀ w : Word, (∃ e, decodeWord w = .error e) ↔
    (let op := w.toNat % 256
     op ∉ [1, 2, 3, 4, 5, 6, 7, 8, 9, 10, 11, 16, 17, 18, 19, 20] ∨
     (op ∈ [1, 2, 7, 8, 9, 10] ∧ w.toNat / 256 ≠ 0) ∨ (op = 4 ∧ w.toNat / 65536 ≠ 0) ∨
     (op = 5 ∧ w.toNat / 16777216 ≠ 0) ∨ (op ∈ [3, 6, 11, 18, 19, 20] ∧ w.toNat / 256 % 256 ≠ 0))

/-- R58 and spec/opcode_table.json: a word decodes to a row's operation exactly if its masked bits are the row's match
value. -/
def Obligations.OpcodeTableAgrees : Prop :=
  ∀ w : Word,
    (decodeWord w = .ok (.whole .init) ↔ w &&& 0xFFFFFFFF#32 = 0x00000001#32) ∧
    (decodeWord w = .ok (.whole .clear) ↔ w &&& 0xFFFFFFFF#32 = 0x00000002#32) ∧
    ((∃ len, decodeWord w = .ok (.print len)) ↔ w &&& 0x0000FFFF#32 = 0x00000003#32) ∧
    ((∃ ch, decodeWord w = .ok (.whole (.printChar ch))) ↔ w &&& 0xFFFF00FF#32 = 0x00000004#32) ∧
    ((∃ col row, decodeWord w = .ok (.whole (.setCursor col row))) ↔ w &&& 0xFF0000FF#32 = 0x00000005#32) ∧
    ((∃ len, decodeWord w = .ok (.drawBuffer len)) ↔ w &&& 0x0000FFFF#32 = 0x00000006#32) ∧
    (decodeWord w = .ok (.whole .newLine) ↔ w &&& 0xFFFFFFFF#32 = 0x00000007#32) ∧
    (decodeWord w = .ok (.whole .scroll) ↔ w &&& 0xFFFFFFFF#32 = 0x00000008#32) ∧
    (decodeWord w = .ok (.whole .powerDown) ↔ w &&& 0xFFFFFFFF#32 = 0x00000009#32) ∧
    (decodeWord w = .ok (.whole .wakeUp) ↔ w &&& 0xFFFFFFFF#32 = 0x0000000A#32) ∧
    ((∃ n, decodeWord w = .ok (.whole (.blink n))) ↔ w &&& 0x0000FFFF#32 = 0x0000000B#32) ∧
    ((∃ d, decodeWord w = .ok (.whole (.sine d))) ↔ w &&& 0x000000FF#32 = 0x00000010#32) ∧
    ((∃ q, decodeWord w = .ok (.whole (.dist q))) ↔ w &&& 0x000000FF#32 = 0x00000011#32) ∧
    ((∃ t, decodeWord w = .ok (.whole (.genRadial t))) ↔ w &&& 0x0000FFFF#32 = 0x00000012#32) ∧
    ((∃ t, decodeWord w = .ok (.whole (.genInterf t))) ↔ w &&& 0x0000FFFF#32 = 0x00000013#32) ∧
    ((∃ t, decodeWord w = .ok (.whole (.genFractal t))) ↔ w &&& 0x0000FFFF#32 = 0x00000014#32)

/-- R54 to R57: the operands' values as numbers of the word: `CH`, `COL` and `ROW` u8, `T` and `LEN` u16, `Q` u24, and
`IMM` the signed 24-bit value of bits [31:8]. -/
def Obligations.OperandValues : Prop :=
  ∀ w : Word,
    (∀ ch, decodeWord w = .ok (.whole (.printChar ch)) → ch.toNat = w.toNat / 256 % 256) ∧
    (∀ col row, decodeWord w = .ok (.whole (.setCursor col row)) →
      col.toNat = w.toNat / 256 % 256 ∧ row.toNat = w.toNat / 65536 % 256) ∧
    (∀ len, decodeWord w = .ok (.print len) → len.toNat = w.toNat / 65536) ∧
    (∀ len, decodeWord w = .ok (.drawBuffer len) → len.toNat = w.toNat / 65536) ∧
    (∀ n, decodeWord w = .ok (.whole (.blink n)) → timeStep n = w.toNat / 65536) ∧
    (∀ t, decodeWord w = .ok (.whole (.genRadial t)) → timeStep t = w.toNat / 65536) ∧
    (∀ t, decodeWord w = .ok (.whole (.genInterf t)) → timeStep t = w.toNat / 65536) ∧
    (∀ t, decodeWord w = .ok (.whole (.genFractal t)) → timeStep t = w.toNat / 65536) ∧
    (∀ q, decodeWord w = .ok (.whole (.dist q)) → squaredDistance q = w.toNat / 256) ∧
    (∀ d, decodeWord w = .ok (.whole (.sine d)) →
      angle d = if w.toNat / 256 < 8388608 then (w.toNat / 256 : Int) else (w.toNat / 256 : Int) - 16777216)

/-! ### State, reset and the step -/

/-- R36: `offset(col, row) = row*COLS + col` is injective and covers 0..503 exactly once. -/
def Obligations.OffsetCoversShadowOnce : Prop :=
  (∀ (col : Fin 84) (row : Fin 6), (offset col row).val = row.val * 84 + col.val) ∧
  ∀ i : Fin 504, ∃! p : Fin 84 × Fin 6, offset p.1 p.2 = i

/-- R151: reset is the construction with given parameters: MODE is UNINIT, CUR is (0,0) (the spec's decision D10),
every shadow byte and STATUS are 0x00, LOG is empty, so nothing is emitted, and CFG is the parameters, which must be
well-formed: a block with others takes no step. -/
def Obligations.ConstructionResetsState : Prop :=
  ∀ c : Cfg, (State.constructed c).mode = .uninit ∧ (State.constructed c).cur = ⟨0, 0⟩ ∧
    (∀ i, i < 504 → (State.constructed c).sh.read i = 0x00#8) ∧ (State.constructed c).status = 0x00#8 ∧
    (State.constructed c).log = [] ∧ (State.constructed c).cfg = c ∧
    (c.wf = false → step (State.constructed c) = .refused .illFormedConfiguration)

/-- R8: which configurations are well-formed, that no step changes the configuration, and that the model refuses a
configuration that is not well-formed. -/
def Obligations.ConfigurationFixedAndChecked : Prop :=
  (∀ c : Cfg, c.wf = true ↔ c.contrast.getLsbD 7 = true ∧ c.cmdSetY.toNat % 8 = 0 ∧ c.cmdSetX.toNat % 128 = 0) ∧
  (∀ s t : State, step s = .next t → t.cfg = s.cfg) ∧
  (∀ s : State, s.cfg.wf = false → step s = .refused .illFormedConfiguration)

/-- R9, R59, R60: with a request on the port that decodes to `i`, a step is `exec i` on the state whose port has lost
exactly that request. -/
def Obligations.StepRunsDecodedRequest : Prop :=
  ∀ (s : State) (r : Request) (rest : List Request) (i : Instr),
    s.cfg.wf = true → s.port = r :: rest → decode r = .ok i → step s = exec i { s with port := rest }

/-- R60, R141, R152, and the model's log entries 3 and 4: with nothing on the port the block waits unchanged, and a legal
word whose payload does not have the length it announces is refused. -/
def Obligations.StepWithoutRequest : Prop :=
  (∀ s : State, s.cfg.wf = true → s.port = [] → step s = .next s) ∧
  ∀ (s : State) (r : Request) (rest : List Request) (h : Head),
    s.cfg.wf = true → s.port = r :: rest → decodeWord r.word = .ok h → r.payload.length ≠ payloadLen r.word →
      step s = .refused .malformedRequest

/-- R61: every request returns one response. Its STATUS is the register after the request, reserved bits zero; FAULT is 0 or
a code 1..4; VALUE is an i32 for SINE, a u8 for DIST, a 504-byte frame for the generators, none for every other request
and none for a request that raised a fault. -/
def Obligations.EveryRequestAnsweredOnce : Prop :=
  (∀ (i : Instr) (s : State), ∃ (t : State) (fault : BitVec 3) (v : Value), exec i s = .next t ∧
    t.responses = s.responses ++ [⟨t.status &&& 0x07#8, fault, v⟩] ∧ fault.toNat ≤ 4 ∧ (fault ≠ 0#3 → v = .none) ∧
    (fault = 0#3 → match i with
      | .sine _ => ∃ x, v = .i32 x
      | .dist _ => ∃ x, v = .u8 x
      | .genRadial _ | .genInterf _ | .genFractal _ => ∃ f, v = .frame f ∧ f.length = 504
      | _ => v = .none)) ∧
  ∀ (s : State) (r : Request) (rest : List Request), s.cfg.wf = true → s.port = r :: rest →
    (∃ e, decodeWord r.word = .error e) →
      ∃ t, step s = .next t ∧ t.responses = s.responses ++ [⟨t.status &&& 0x07#8, 1#3, .none⟩]

/-! ### Invariants and whole-machine rules -/

/-- R8, R17, R19, R22, R125, R151: the invariant holds after construction with any well-formed configuration, and at
the model's State.reset, whose construction parameters are the model's choice (log entry 6). -/
def Obligations.ConstructionMeetsInvariant : Prop :=
  (∀ c : Cfg, c.wf = true → (State.constructed c).Inv) ∧ State.reset.Inv

/-- R8, R17, R19, R22, R66, R125, R151: every step keeps the invariant: the shadow memory canonical and inside 0..503, the
status register within its codes, the configuration well-formed, and nothing drawn, moved or emitted before INIT. -/
def Obligations.StepKeepsInvariant : Prop := ∀ s t : State, s.Inv → step s = .next t → t.Inv

/-- R14: INIT is the only request that writes MODE, it writes READY, and no request writes UNINIT; construction sets it. -/
def Obligations.OnlyInitWritesMode : Prop :=
  (∀ (i : Instr) (s t : State), exec i s = .next t → t.mode ≠ s.mode → i = .init) ∧
  (∀ s t : State, exec .init s = .next t → t.mode = .ready) ∧
  (∀ s t : State, step s = .next t → t.mode = .uninit → s.mode = .uninit) ∧
  ∀ c : Cfg, (State.constructed c).mode = .uninit

/-- R22, R130: ERR is sticky. A step changes STATUS only while ERR is 0, and a nonzero ERR never changes again. -/
def Obligations.ErrStaysUntilReset : Prop :=
  ∀ s t : State, step s = .next t → s.status.extractLsb' 0 3 ≠ 0#3 → t.status = s.status

/-- R31, R32, R142: LOG and the responses are append-only, and a step appends at most one response. -/
def Obligations.LogAndResponsesGrow : Prop :=
  ∀ s t : State, step s = .next t →
    (∃ es, t.log = s.log ++ es) ∧ (t.responses = s.responses ∨ ∃ r, t.responses = s.responses ++ [r])

/-- R126, R129: a request whose response names a fault has no other effect than the recorded code and the response; it has
left the port with its payload. -/
def Obligations.FaultsArePrecise : Prop :=
  ∀ (s t : State) (r : Request) (rest : List Request) (a : Response),
    s.port = r :: rest → step s = .next t → t.responses = s.responses ++ [a] → a.fault ≠ 0#3 →
      t = faulted a.fault { s with port := rest }

/-- R128: decode, then the mode gate, then the operand check: the first that fails is the one fault raised, and only it is
recorded and answered. -/
def Obligations.FirstFailingCheckRaises : Prop :=
  (∀ (s : State) (r : Request) (rest : List Request), s.cfg.wf = true → s.port = r :: rest →
    (∃ e, decodeWord r.word = .error e) → step s = .next (faulted 1#3 { s with port := rest })) ∧
  (∀ (s : State) (i : Instr), s.mode = .uninit → gated i = true → exec i s = .next (faulted 2#3 s)) ∧
  (∀ (s : State) (f : List Byte), s.mode = .ready → f.length ≠ 504 →
    exec (.drawBuffer f) s = .next (faulted 3#3 s)) ∧
  (∀ (s : State) (t : BitVec 16), t.toNat > 64 → exec (.genFractal t) s = .next (faulted 4#3 s))

/-- R127: the conditions that are not faults: an out-of-range cursor is a no-op; a text byte that is not printable renders `?`
(in PRINT the newline byte excepted); WAKE_UP is accepted at any time; BLINK with n = 0 does nothing; INIT is accepted in READY.
Each answers FAULT = 0 and leaves STATUS. -/
def Obligations.ConditionsThatAreNoFaults : Prop :=
  ∀ s : State, s.mode = .ready →
    (∀ col row : Byte, ¬(col.toNat < 84 ∧ row.toNat < 6) →
      exec (.setCursor col row) s = .next { s with responses := answered s .none }) ∧
    (∀ b : Byte, ¬(0x20 ≤ b.toNat ∧ b.toNat ≤ 0x7E) → exec (.printChar b) s = exec (.printChar 0x3F#8) s ∧
      (b ≠ 0x0A#8 → exec (.print [b]) s = exec (.print [0x3F#8]) s)) ∧
    (∀ text : List Byte, ∃ t, exec (.print text) s = .next t ∧ t.status = s.status ∧ t.responses = answered s .none) ∧
    (∀ ch : Byte, ∃ t, exec (.printChar ch) s = .next t ∧ t.status = s.status ∧ t.responses = answered s .none) ∧
    (∃ t, exec .wakeUp s = .next t ∧ t.status = s.status ∧ t.responses = answered s .none) ∧
    exec (.blink 0#16) s = .next { s with responses := answered s .none } ∧
    (∃ t, exec .init s = .next t ∧ t.status = s.status ∧ t.responses = answered s .none)

/-- R66, in part: before INIT every DRV request but INIT raises `E_NOT_READY` before any effect; and whatever next state a GEN
request answers, it answers the same in the other mode, MODE apart. -/
def Obligations.ModeGate : Prop :=
  (∀ (i : Instr) (s : State), gated i = true → s.mode = .uninit → exec i s = .next (faulted 2#3 s)) ∧
  ∀ (i : Instr) (s t : State) (m : Mode), generates i = true → exec i s = .next t →
    exec i { s with mode := m } = .next { t with mode := m }

/-! ### Lifecycle (41_lifecycle.md) -/

/-- R68, with R67 and R70: INIT from any state, in either mode, emits the six configuration commands in exactly this
order, then the events of the clear; it leaves READY, the cursor at the origin and the shadow zero, and keeps CFG,
STATUS and the port. -/
def Obligations.InitEffect : Prop :=
  ∀ s : State, ∃ t, exec .init s = .next t ∧ t.mode = .ready ∧ t.cur = ⟨0, 0⟩ ∧ (∀ i, i < 504 → t.sh.read i = 0x00#8) ∧
    t.cfg = s.cfg ∧ t.status = s.status ∧ t.port = s.port ∧ t.responses = answered s .none ∧
    t.log = s.log ++ ([.cmd s.cfg.cmdFsExt, .cmd s.cfg.contrast, .cmd s.cfg.cmdTempco, .cmd s.cfg.cmdBias,
      .cmd s.cfg.cmdFsBasic, .cmd s.cfg.cmdDispNormal] ++ setAt s.cfg 0 0 ++ List.replicate 504 (.dat 0x00#8) ++
      setAt s.cfg 0 0)

/-- R69: INIT from any state gives the mode, cursor, shadow and the same 514 events as INIT from reset with the same
configuration. -/
def Obligations.InitIdempotent : Prop :=
  ∀ s : State, ∃ t t₀ es, exec .init s = .next t ∧ exec .init (State.constructed s.cfg) = .next t₀ ∧
    t.mode = t₀.mode ∧ t.cur = t₀.cur ∧ t.sh = t₀.sh ∧ t.log = s.log ++ es ∧ t₀.log = es ∧ es.length = 514 ∧
    t.status = s.status

/-- R70, R71: CLEAR in READY: positioning, 504 zero bytes, positioning; the shadow is zero, the cursor at the origin,
and nothing else changes but the response. -/
def Obligations.ClearEffect : Prop :=
  ∀ s : State, s.mode = .ready → ∃ t, exec .clear s = .next t ∧ Kept s t ∧ t.cur = ⟨0, 0⟩ ∧
    (∀ i, i < 504 → t.sh.read i = 0x00#8) ∧ t.responses = answered s .none ∧
    t.log = s.log ++ (setAt s.cfg 0 0 ++ List.replicate 504 (.dat 0x00#8) ++ setAt s.cfg 0 0)

/-- R72: after CLEAR in READY, and after INIT from any state, the shadow is all zero and the cursor at the origin; and on the
reference device, with the default command bytes, so is the screen: for CLEAR from a device in the modes the API assumes, for
INIT from any device. -/
def Obligations.ClearedShadowAndScreen : Prop :=
  ∀ s : State,
    (s.mode = .ready → ∃ t es, exec .clear s = .next t ∧ t.cur = ⟨0, 0⟩ ∧ (∀ i, i < 504 → t.sh.read i = 0x00#8) ∧
      t.log = s.log ++ es ∧ ∀ dev : Device, DefaultCommands s.cfg → dev.Tracks s →
        ∃ dev', dev.run es = some dev' ∧ ∀ i, i < 504 → dev'.dram.read i = 0x00#8) ∧
    ∃ t es, exec .init s = .next t ∧ t.cur = ⟨0, 0⟩ ∧ (∀ i, i < 504 → t.sh.read i = 0x00#8) ∧ t.log = s.log ++ es ∧
      ∀ dev : Device, DefaultCommands s.cfg → ∃ dev', dev.run es = some dev' ∧ ∀ i, i < 504 → dev'.dram.read i = 0x00#8

/-! ### Text (42_text.md) -/

/-- R73, R74, R75: SET_CURSOR in READY: the row command, then the column command, and the cursor; out of range nothing but the
response. -/
def Obligations.SetCursorEffect : Prop :=
  ∀ (s : State) (col row : Byte), s.mode = .ready →
    (∀ (hc : col.toNat < 84) (hr : row.toNat < 6), exec (.setCursor col row) s = .next
      { s with cur := ⟨⟨col.toNat, hc⟩, ⟨row.toNat, hr⟩⟩
               log := s.log ++ [.cmd (s.cfg.cmdSetY ||| row), .cmd (s.cfg.cmdSetX ||| col)]
               responses := answered s .none }) ∧
    (84 ≤ col.toNat ∨ 6 ≤ row.toNat →
      exec (.setCursor col row) s = .next { s with responses := answered s .none })

/-- R77, R78, R81 to R84, R86 to R88: PRINT of any text, from any cursor and shadow, is R84's linear engine: cursor, every
shadow byte and every event. -/
def Obligations.PrintIsLinearEngine : Prop :=
  ∀ (s : State) (text : List Byte), s.mode = .ready →
    ∃ t, exec (.print text) s = .next t ∧ RunsTo s t ((Linear.start s).text s.cfg text)

/-- R78, R80, R81: PRINT_CHAR of any byte, from any cursor and shadow, is one character of the linear engine; a byte that is
not printable, the newline byte too, renders `?`. -/
def Obligations.PrintCharIsLinearEngine : Prop :=
  ∀ (s : State) (ch : Byte), s.mode = .ready → ∃ t, exec (.printChar ch) s = .next t ∧
    RunsTo s t ((Linear.start s).char s.cfg (if 0x20 ≤ ch.toNat ∧ ch.toNat ≤ 0x7E then ch else 0x3F#8))

/-- R80, R81, R86: a character that does not wrap writes six shadow bytes from its cursor on, moves the cursor six columns,
leaves every other shadow byte, and emits 18 events, each byte followed by its resync. -/
def Obligations.PrintCharWithinRow : Prop :=
  ∀ (s : State) (ch : Byte) (hc : s.cur.col.val + 6 < 84), s.mode = .ready →
    let bs := glyphColumns s.cfg (if 0x20 ≤ ch.toNat ∧ ch.toNat ≤ 0x7E then ch else 0x3F#8) ++ [0x00#8]
    ∃ t, exec (.printChar ch) s = .next t ∧ Kept s t ∧ t.cur = ⟨⟨s.cur.col.val + 6, hc⟩, s.cur.row⟩ ∧
      (∀ k, k < 6 → t.sh.read (84 * s.cur.row.val + s.cur.col.val + k) = bs.getD k 0x00#8) ∧
      (∀ i, ¬(position s ≤ i ∧ i < position s + 6) → t.sh.read i = s.sh.read i) ∧
      t.log = s.log ++ (List.range 6).flatMap
        (fun k => .dat (bs.getD k 0x00#8) :: setAt s.cfg (s.cur.col.val + (k + 1)) s.cur.row.val) ∧
      t.responses = answered s .none

/-- R84: the cursor engine in linear form, byte by byte: a glyph byte is written at `SH[p]`, then `p <- p + 1`, and at 504
the block scrolls and `p <- 420`; a newline scrolls to 420 from `p ≥ 420` and otherwise moves to the next row's start. -/
def Obligations.CursorEngineLinear : Prop :=
  ∀ s : State,
    (∀ b : Byte,
      (position s + 1 < 504 → position (putByte s b) = position s + 1 ∧
        ∀ i, (putByte s b).sh.read i = if i = position s then b else s.sh.read i) ∧
      (position s + 1 = 504 → position (putByte s b) = 420 ∧
        ∀ i, i < 504 → (putByte s b).sh.read i =
          if i < 420 then (if i + 84 = position s then b else s.sh.read (i + 84)) else 0x00#8)) ∧
    (420 ≤ position s → position (newLineBody s) = 420 ∧
      ∀ i, i < 504 → (newLineBody s).sh.read i = if i < 420 then s.sh.read (i + 84) else 0x00#8) ∧
    (position s < 420 → position (newLineBody s) = 84 * (position s / 84 + 1) ∧ (newLineBody s).sh = s.sh)

/-- R79: PRINT of a text cut anywhere is PRINT of the first part, then of the second: each byte's effects are complete before
the next is read. -/
def Obligations.PrintOfParts : Prop :=
  ∀ (s : State) (xs ys : List Byte), ∃ t t₁ t₂, exec (.print (xs ++ ys)) s = .next t ∧ exec (.print xs) s = .next t₁ ∧
    exec (.print ys) t₁ = .next t₂ ∧ t.mode = t₂.mode ∧ t.cur = t₂.cur ∧ t.sh = t₂.sh ∧ t.status = t₂.status ∧
    t.log = t₂.log

/-- R85: the scenario of the source: `print "Hello,\nworld!"` on a freshly initialized block leaves the cursor at (36,1), the
glyphs on rows 0 and 1, and every other shadow byte zero, for any glyph table. -/
def Obligations.HelloWorldScenario : Prop :=
  ∀ s : State, s.mode = .ready → s.cur = ⟨0, 0⟩ → (∀ i, i < 504 → s.sh.read i = 0x00#8) →
    ∃ t, exec (.print [0x48#8, 0x65#8, 0x6C#8, 0x6C#8, 0x6F#8, 0x2C#8, 0x0A#8, 0x77#8, 0x6F#8, 0x72#8, 0x6C#8, 0x64#8,
        0x21#8]) s = .next t ∧ t.cur = ⟨36, 1⟩ ∧
      (∀ j k, j < 6 → k < 6 → t.sh.read (6 * j + k) =
        (glyphColumns s.cfg ([0x48#8, 0x65#8, 0x6C#8, 0x6C#8, 0x6F#8, 0x2C#8].getD j 0) ++ [0x00#8]).getD k 0x00#8) ∧
      (∀ j k, j < 6 → k < 6 → t.sh.read (84 + 6 * j + k) =
        (glyphColumns s.cfg ([0x77#8, 0x6F#8, 0x72#8, 0x6C#8, 0x64#8, 0x21#8].getD j 0) ++ [0x00#8]).getD k 0x00#8) ∧
      (∀ i, i < 504 → (36 ≤ i ∧ i < 84 ∨ 120 ≤ i) → t.sh.read i = 0x00#8)

/-- R87, R88: NEW_LINE in READY: above the last row the cursor moves to the start of the next row; on the last row the
block scrolls and the cursor is at (0,5). The events, and all that is kept. -/
def Obligations.NewLineEffect : Prop :=
  ∀ s : State, s.mode = .ready →
    (∀ hr : s.cur.row.val < 5, exec .newLine s = .next
      { s with cur := ⟨0, ⟨s.cur.row.val + 1, by omega⟩⟩, log := s.log ++ setAt s.cfg 0 (s.cur.row.val + 1)
               responses := answered s .none }) ∧
    (s.cur.row.val = 5 → ∃ t, exec .newLine s = .next t ∧ Kept s t ∧ t.cur = ⟨0, 5⟩ ∧
      (∀ i, i < 504 → t.sh.read i = scrolled s.sh.read i) ∧
      t.log = s.log ++ (scrollLog s.cfg s.sh.read s.cur.col.val 4 ++ setAt s.cfg 0 5) ∧
      t.responses = answered s .none)

/-- R88, R89: SCROLL in READY: rows 1..5 move to rows 0..4, the last row is zero, the new shadow is streamed from (0,0), and
the cursor keeps its column on the row above, clamped at row 0. -/
def Obligations.ScrollEffect : Prop :=
  ∀ s : State, s.mode = .ready → ∃ t, exec .scroll s = .next t ∧ Kept s t ∧ t.cur.col = s.cur.col ∧
    t.cur.row.val = s.cur.row.val - 1 ∧ (∀ i, i < 504 → t.sh.read i = scrolled s.sh.read i) ∧
    t.log = s.log ++ scrollLog s.cfg s.sh.read s.cur.col.val (s.cur.row.val - 1) ∧ t.responses = answered s .none

/-- R91: after SCROLL in READY, `SH'[84r + c] = SH[84(r+1) + c]` for r = 0..4 and `SH'[420 + c] = 0`, and the cursor is
`(CUR.col, max(CUR.row - 1, 0))`; and on the reference device in horizontal mode and the basic set, with the default command
bytes, the display RAM is the new shadow and the pointer the new cursor. -/
def Obligations.ScrollShadowAndScreen : Prop :=
  ∀ s : State, s.mode = .ready → ∃ t es, exec .scroll s = .next t ∧ t.log = s.log ++ es ∧
    (∀ r c, r < 5 → c < 84 → t.sh.read (84 * r + c) = s.sh.read (84 * (r + 1) + c)) ∧
    (∀ c, c < 84 → t.sh.read (420 + c) = 0x00#8) ∧
    t.cur.col = s.cur.col ∧ (t.cur.row.val : Int) = max ((s.cur.row.val : Int) - 1) 0 ∧
    ∀ dev : Device, DefaultCommands s.cfg → dev.v = false → dev.h = false → ∃ dev', dev.run es = some dev' ∧
      (∀ i, i < 504 → dev'.dram.read i = t.sh.read i) ∧ dev'.x = t.cur.col ∧ dev'.y = t.cur.row

/-! ### Upload (43_upload.md) -/

/-- R92, R94: DRAW_BUFFER of a 504-byte frame F in any READY state leaves `SH = F` and `CUR = (0,0)`; its events, and what it
leaves alone. -/
def Obligations.DrawBufferEffect : Prop :=
  ∀ (s : State) (f : List Byte), s.mode = .ready → f.length = 504 → ∃ t, exec (.drawBuffer f) s = .next t ∧ Kept s t ∧
    shadowBytes t = f ∧ t.cur = ⟨0, 0⟩ ∧ t.responses = answered s .none ∧
    t.log = s.log ++ ([.cmd s.cfg.cmdFsVert] ++ setAt s.cfg 0 0 ++ data f ++ [.cmd s.cfg.cmdFsBasic] ++
      setAt s.cfg 0 0)

/-- R93: a frame of any other length is rejected before any device write or state change, after the mode gate, neither
truncated nor padded; the request leaves the port with its payload. -/
def Obligations.WrongFrameLengthRejected : Prop :=
  ∀ (s : State) (f : List Byte), f.length ≠ 504 →
    exec (.drawBuffer f) s = .next (if s.mode = .ready then faulted 3#3 s else faulted 2#3 s) ∧
    ∀ rest : List Request, s.cfg.wf = true → f.length < 65536 → s.port = encode (.drawBuffer f) :: rest →
      step s = .next (if s.mode = .ready then faulted 3#3 { s with port := rest }
        else faulted 2#3 { s with port := rest })

/-- R65: a `show_*` line issued to a READY block, for a time step the generator accepts, generates a frame and then
uploads it: the shadow ends as the very frame of the first response, and what stood on the port still stands there. -/
def Obligations.ShowUploadsGeneratedFrame : Prop :=
  ∀ (s : State) (g : Instr), s.cfg.wf = true → s.mode = .ready →
    (g matches .genRadial _ | .genInterf _ | .genFractal _) → (∀ t, g = .genFractal t → t.toNat ≤ 64) →
    ∃ s₁ f t, step (presentNext (encode g) s) = .next s₁ ∧ s₁.responses = answered s (.frame f) ∧
      issue (.showFrame g) s = .next t ∧ shadowBytes t = f ∧ t.port = s.port

/-! ### Power and blink (44_power_blink.md) -/

/-- R97: POWER_DOWN in READY clears the device, returns to the cursor and sends the power-save command; nothing of the block's
state changes but the log and the response. -/
def Obligations.PowerDownEffect : Prop :=
  ∀ s : State, s.mode = .ready → exec .powerDown s = .next
    { s with log := s.log ++ (setAt s.cfg 0 0 ++ List.replicate 504 (.dat 0x00#8) ++
                      setAt s.cfg s.cur.col.val s.cur.row.val ++ [.cmd s.cfg.cmdFsPd])
             responses := answered s .none }

/-- R98: WAKE_UP in READY emits one command, whether or not POWER_DOWN came before, and changes nothing else but the
response. -/
def Obligations.WakeUpEffect : Prop :=
  ∀ s : State, s.mode = .ready → exec .wakeUp s = .next
    { s with log := s.log ++ [.cmd s.cfg.cmdFsBasic], responses := answered s .none }

/-- R100, R102: BLINK in READY: n times the complement, one delay, the shadow, and after the last the kept cursor; with
n = 0 nothing. The shadow and the cursor end as they were. -/
def Obligations.BlinkEffect : Prop :=
  ∀ (s : State) (n : BitVec 16), s.mode = .ready → exec (.blink n) s = .next
    { s with log := s.log ++ ((List.replicate n.toNat
                      (setAt s.cfg 0 0 ++ data ((shadowBytes s).map fun b => ~~~b) ++ [.delay s.cfg.blinkDelay] ++
                        setAt s.cfg 0 0 ++ data (shadowBytes s))).flatten ++
                      (if n = 0#16 then [] else setAt s.cfg s.cur.col.val s.cur.row.val))
             responses := answered s .none }

/-- R101: BLINK never writes the shadow, in any state, and in READY byte i of each inverted phase is `~SH[i] = 255 - SH[i]`, every one of its eight
pixels inverted. -/
def Obligations.BlinkInvertsEveryPixel : Prop :=
  (∀ (s t : State) (n : BitVec 16), exec (.blink n) s = .next t → t.sh = s.sh) ∧
  ∀ (s : State) (n : BitVec 16), s.mode = .ready → ∃ t es, exec (.blink n) s = .next t ∧ t.log = s.log ++ es ∧
    ∀ j i, j < n.toNat → i < 504 → ∃ b, es[1013 * j + 2 + i]? = some (.dat b) ∧
      b.toNat = 255 - (s.sh.read i).toNat ∧ ∀ k, k < 8 → b.getLsbD k = !(s.sh.read i).getLsbD k

/-- R164: how many events each request emits on a READY block: PRINT_CHAR where it does not wrap, PRINT of the empty
text, DRAW_BUFFER of a wrong length none, BLINK n as 1013n + 2 or none. -/
def Obligations.EventCounts : Prop :=
  ∀ (s t : State) (i : Instr), s.mode = .ready → exec i s = .next t →
    let n := t.log.length - s.log.length
    match i with
    | .init => n = 514
    | .clear => n = 508
    | .setCursor col row => n = if col.toNat < 84 ∧ row.toNat < 6 then 2 else 0
    | .printChar _ => s.cur.col.val + 6 < 84 → n = 18
    | .print text => text = [] → n = 0
    | .newLine => n = if s.cur.row.val = 5 then 510 else 2
    | .scroll => n = 508
    | .drawBuffer f => n = if f.length = 504 then 510 else 0
    | .powerDown => n = 509
    | .wakeUp => n = 1
    | .blink k => n = if k.toNat = 0 then 0 else 1013 * k.toNat + 2
    | .sine _ => n = 0
    | .dist _ => n = 0
    | .genRadial _ => n = 0
    | .genInterf _ => n = 0
    | .genFractal _ => n = 0

/-! ### Generators (45_generators.md) -/

/-- R105, R106: SINE, in either mode, answers the i32 of `sine` at the signed angle and changes nothing else. -/
def Obligations.SineEffect : Prop :=
  ∀ (s : State) (imm : BitVec 24), ∃ v : BitVec 32,
    exec (.sine imm) s = .next { s with responses := answered s (.i32 v) } ∧ v.toInt = sine imm.toInt

/-- R105: the four cases of the definition of `sine`, over the table `SINE_ROM`; the result is an i32, and depends on the
angle modulo 360 only. -/
def Obligations.SineReduction : Prop :=
  ∀ d : Int, (0 ≤ d → d ≤ 90 → sine d = sineRom.getD d.toNat 0) ∧
    (90 < d → d ≤ 180 → sine d = sineRom.getD (180 - d).toNat 0) ∧
    (180 < d → d < 360 → sine d = -sine (d - 180)) ∧
    (d < 0 ∨ 360 ≤ d → sine d = sine (d - 360 * d.sign)) ∧ sine d = sine (d % 360) ∧
    (-2 ^ 31 ≤ sine d ∧ sine d < 2 ^ 31)

/-- R107: sine is 0 at 0 and 180, its largest table value 16777216 at 90, the negated sine(90) at 270, depends on the
angle modulo 360 only, negative angles included, and never exceeds 2^24 in absolute value. -/
def Obligations.SineProperties : Prop :=
  sine 0 = 0 ∧ sine 90 = 16777216 ∧ 16777216 ∈ sineRom ∧ (∀ e ∈ sineRom, e ≤ 16777216) ∧ sine 180 = 0 ∧ sine 270 = -sine 90 ∧
    (∀ d : Int, sine d = sine (d % 360)) ∧ ∀ d : Int, |sine d| ≤ 2 ^ 24

/-- R108, R109: DIST, in either mode, answers the integer square root of its operand, saturated at 127, and changes nothing
else. -/
def Obligations.DistEffect : Prop :=
  ∀ (s : State) (q : BitVec 24), ∃ v : Byte,
    exec (.dist q) s = .next { s with responses := answered s (.u8 v) } ∧ v.toNat = rootDistance q.toNat

/-- R110, R108: `dist` is monotonically non-decreasing, and it is the number of the squares of 1..127 that do not
exceed its argument. -/
def Obligations.DistMonotone : Prop :=
  (∀ q₁ q₂ : Nat, q₁ ≤ q₂ → Machine.dist q₁ ≤ Machine.dist q₂) ∧
  ∀ q : Nat, Machine.dist q = ((List.range 127).map fun j => (j + 1) ^ 2).countP fun threshold => decide (threshold ≤ q)

/-- R111 to R114: GEN_RADIAL, in either mode and for every time step, answers the frame of the radial predicate and changes
nothing else. -/
def Obligations.GenRadialEffect : Prop :=
  ∀ (s : State) (t : BitVec 16), ∃ f, exec (.genRadial t) s = .next { s with responses := answered s (.frame f) } ∧
    Shows f (radialLit t.toNat)

/-- R111, R112, R115, R116: GEN_INTERF, in either mode and for every time step, answers the frame of the interference
predicate and changes nothing else. -/
def Obligations.GenInterfEffect : Prop :=
  ∀ (s : State) (t : BitVec 16), ∃ f, exec (.genInterf t) s = .next { s with responses := answered s (.frame f) } ∧
    Shows f (interfLit t.toNat)

/-- R111, R112, R117 to R121: GEN_FRACTAL, in either mode, for a time step up to 64, answers the frame of the escape-time
predicate and changes nothing else; beyond 64 it raises `E_TIME_RANGE`. -/
def Obligations.GenFractalEffect : Prop :=
  ∀ (s : State) (t : BitVec 16),
    (t.toNat ≤ 64 → ∃ f, exec (.genFractal t) s = .next { s with responses := answered s (.frame f) } ∧
      Shows f (fractalLit t.toNat)) ∧
    (64 < t.toNat → exec (.genFractal t) s = .next (faulted 4#3 s))

/-- R122: the source's fractal properties: at time step 0 the pixel (0,0) of the grid is inside, bit 0 of frame byte 255; at
time step 64 every pixel is inside. -/
def Obligations.FractalBoundaryFrames : Prop :=
  ∀ s : State,
    (∃ f, exec (.genFractal 0#16) s = .next { s with responses := answered s (.frame f) } ∧
      (f.getD 255 0x00#8).getLsbD 0 = true) ∧
    exec (.genFractal 64#16) s = .next { s with responses := answered s (.frame (List.replicate 504 0xFF#8)) }

/-- R26: a generator request reads only its operand and the tables: the FAULT and VALUE it answers do not depend on
the state, and it writes nothing but its response and, where it answers a fault (GEN_FRACTAL out of range), the fault
record in STATUS. -/
def Obligations.GeneratorsIgnoreState : Prop :=
  ∀ (i : Instr) (s₁ s₂ t₁ t₂ : State), generates i = true → exec i s₁ = .next t₁ → exec i s₂ = .next t₂ →
    (t₁.mode = s₁.mode ∧ t₁.cur = s₁.cur ∧ t₁.sh = s₁.sh ∧ t₁.cfg = s₁.cfg ∧ t₁.log = s₁.log ∧ t₁.port = s₁.port) ∧
    ∃ fault v, t₁.responses = s₁.responses ++ [⟨t₁.status &&& 0x07#8, fault, v⟩] ∧
      t₂.responses = s₂.responses ++ [⟨t₂.status &&& 0x07#8, fault, v⟩] ∧
      t₁.status = if fault = 0#3 then s₁.status else recorded s₁.status fault

/-! ### The reference device (60_exceptions.md R143 to R149), with the default command bytes -/

/-- R150, first part, on the reference device with the default command bytes: INIT brings any device to horizontal
addressing, the basic set, powered, normal display, with the contrast byte as Vop, the display RAM zero and the
pointer at the origin. -/
def Obligations.InitConfiguresDevice : Prop :=
  ∀ (s : State) (dev : Device), DefaultCommands s.cfg → ∃ t es dev', exec .init s = .next t ∧ t.log = s.log ++ es ∧
    dev.run es = some dev' ∧ dev'.h = false ∧ dev'.v = false ∧ dev'.pd = false ∧ dev'.d = true ∧ dev'.e = false ∧
    dev'.vop = s.cfg.contrast.extractLsb' 0 7 ∧ dev'.tc = 0#2 ∧ dev'.bs = 4#3 ∧
    (∀ i, i < 504 → dev'.dram.read i = 0x00#8) ∧ dev'.x = 0 ∧ dev'.y = 0

/-- R18, R29, R150, second part, on the reference device with the default command bytes: after every request of a
READY block, from a device in horizontal addressing and the basic set with its pointer at the cursor, the device is so
again, and every command it received has a specified effect. Its power-down bit is as R150 says, set from a POWER_DOWN
until the next WAKE_UP or INIT, after every request but a DRAW_BUFFER that completes while the bit is set. After every
completed DRAW_BUFFER it is clear; where it was set before, that is the model's own deduction from R92 and R144 (log
entry 21), against R150's last sentence, which names WAKE_UP and INIT alone. -/
def Obligations.EveryRequestResyncsDevice : Prop :=
  ∀ (i : Instr) (s t : State) (dev : Device), DefaultCommands s.cfg → s.mode = .ready → dev.Tracks s →
    exec i s = .next t → ∃ es dev', t.log = s.log ++ es ∧ dev.run es = some dev' ∧ dev'.Tracks t ∧
      (¬((∃ f, i = .drawBuffer f ∧ f.length = 504) ∧ dev.pd = true) → dev'.pd = powerSaveAfter i dev.pd) ∧
      ((∃ f, i = .drawBuffer f ∧ f.length = 504) → dev'.pd = false)

/-- R50, R51, on the reference device with the default command bytes: the shadow is a cache of the display RAM: INIT,
CLEAR, PRINT, PRINT_CHAR, SET_CURSOR, NEW_LINE and SCROLL in READY keep it coherent, and INIT, CLEAR and SCROLL make
it coherent from any display RAM. -/
def Obligations.TextKeepsShadowCoherent : Prop :=
  ∀ (i : Instr) (s t : State) (dev : Device), DefaultCommands s.cfg → s.mode = .ready → keepsCoherence i = true →
    (dev.Coherent s ∨ (dev.Tracks s ∧ (i = .init ∨ i = .clear ∨ i = .scroll))) → exec i s = .next t →
      ∃ es dev', t.log = s.log ++ es ∧ dev.run es = some dev' ∧ dev'.Coherent t

/-- R39, R42, R95, R96, on the reference device with the default command bytes: after DRAW_BUFFER F the display RAM is
`DRAM[b][c] = F[6c + b]`, while the shadow holds F verbatim, in the frame's own order: `SH[84b + c] = F[84b + c]`. -/
def Obligations.UploadedFrameOnScreen : Prop :=
  ∀ (s : State) (dev : Device) (f : List Byte), DefaultCommands s.cfg → s.mode = .ready → dev.Tracks s →
    f.length = 504 → ∃ t es dev', exec (.drawBuffer f) s = .next t ∧ t.log = s.log ++ es ∧ dev.run es = some dev' ∧
      ∀ b c, b < 6 → c < 84 → dev'.dram.read (84 * b + c) = f.getD (6 * c + b) 0x00#8 ∧
        t.sh.read (84 * b + c) = f.getD (84 * b + c) 0x00#8

/-- R51, R97 to R99, on the reference device with the default command bytes: POWER_DOWN leaves the display RAM zero,
the shadow and the cursor kept, and WAKE_UP right after it leaves all three as they are with power-save off. -/
def Obligations.PowerDownBlanksScreen : Prop :=
  ∀ (s : State) (dev : Device), DefaultCommands s.cfg → s.mode = .ready → dev.Tracks s →
    ∃ t u es fs dev' dev'', exec .powerDown s = .next t ∧ t.log = s.log ++ es ∧ dev.run es = some dev' ∧
      dev'.pd = true ∧ (∀ i, i < 504 → dev'.dram.read i = 0x00#8) ∧ t.sh = s.sh ∧ t.cur = s.cur ∧
      exec .wakeUp t = .next u ∧ u.log = t.log ++ fs ∧ dev'.run fs = some dev'' ∧ dev''.pd = false ∧
      dev''.dram = dev'.dram ∧ u.sh = s.sh ∧ u.cur = s.cur

/-- R51, R100, on the reference device with the default command bytes: after a BLINK with n > 0 the display RAM is the
shadow read row-major and the pointer at the cursor, from any display RAM. -/
def Obligations.BlinkRestoresScreen : Prop :=
  ∀ (s : State) (dev : Device) (n : BitVec 16), DefaultCommands s.cfg → s.mode = .ready → dev.Tracks s → n ≠ 0#16 →
    ∃ t es dev', exec (.blink n) s = .next t ∧ t.log = s.log ++ es ∧ dev.run es = some dev' ∧ dev'.Coherent t
end

