-- ==== Sys2Proof/Laws/Memory.lean ====
section
/-! SUPPORT. What each operation of a memory reads as afterwards, and that each keeps the canonical form. -/

namespace Sys2Proof.Machine

/-! ### Reading -/

@[simp] theorem Memory.read_nil (a : Nat) : Memory.read [] a = 0#8 := rfl

theorem Memory.read_cons (c : Host.Cell) (m : Memory) (a : Nat) :
    Memory.read (c :: m) a = if a = c.1 then c.2 else Memory.read m a := by
  obtain ⟨b, u⟩ := c
  simp only [Memory.read, cond_eq_ite, Nat.beq_eq]

theorem Memory.erase_cons (c : Host.Cell) (m : Memory) (a : Nat) :
    Memory.erase (c :: m) a = if a = c.1 then Memory.erase m a else c :: Memory.erase m a := by
  obtain ⟨b, u⟩ := c
  simp only [Memory.erase, cond_eq_ite, Nat.beq_eq]

theorem Memory.insert_cons (c : Host.Cell) (m : Memory) (a : Nat) (v : Byte) :
    Memory.insert (c :: m) a v = if a ≤ c.1 then (a, v) :: c :: m else c :: Memory.insert m a v := by
  obtain ⟨b, u⟩ := c
  simp only [Memory.insert, cond_eq_ite, Nat.ble_eq]

theorem Memory.read_erase (m : Memory) (a i : Nat) :
    (Memory.erase m a).read i = if i = a then 0#8 else m.read i := by
  induction m with
  | nil => simp [Memory.erase]
  | cons c m ih =>
    rw [Memory.erase_cons]
    split <;> simp only [Memory.read_cons, ih] <;> split_ifs <;> simp_all

theorem Memory.read_insert {m : Memory} {a : Nat} (v : Byte) (h : m.read a = 0#8) (hm : ∀ c ∈ m, c.1 ≠ a) (i : Nat) :
    (Memory.insert m a v).read i = if i = a then v else m.read i := by
  induction m with
  | nil => simp [Memory.insert, Memory.read_cons]
  | cons c m ih =>
    have hc : c.1 ≠ a := hm c List.mem_cons_self
    have h' : Memory.read m a = 0#8 := by rwa [Memory.read_cons, if_neg (Ne.symm hc)] at h
    rw [Memory.insert_cons]
    split
    · simp only [Memory.read_cons]
    · simp only [Memory.read_cons, ih h' fun c' hc' => hm c' (List.mem_cons_of_mem _ hc')]
      split_ifs <;> simp_all

theorem Memory.ne_of_mem_erase {m : Memory} {a : Nat} {c : Host.Cell} (h : c ∈ Memory.erase m a) : c.1 ≠ a := by
  induction m with
  | nil => simp [Memory.erase] at h
  | cons d m ih =>
    rw [Memory.erase_cons] at h
    split at h
    · exact ih h
    · rcases List.mem_cons.mp h with rfl | h
      · exact Ne.symm ‹_›
      · exact ih h

/-- A read after a write gives the value written at its address and the old value at every other. -/
theorem Memory.read_write (m : Memory) (a : Nat) (v : Byte) (i : Nat) :
    (m.write a v).read i = if i = a then v else m.read i := by
  unfold Memory.write
  split
  · subst v; exact Memory.read_erase m a i
  · rw [Memory.read_insert v (by simp [Memory.read_erase]) fun c hc => Memory.ne_of_mem_erase hc, Memory.read_erase]
    split_ifs <;> rfl

@[simp] theorem Memory.read_write_same (m : Memory) (a : Nat) (v : Byte) : (m.write a v).read a = v := by
  simp [Memory.read_write]

theorem Memory.read_write_other (m : Memory) {a i : Nat} (v : Byte) (h : i ≠ a) : (m.write a v).read i = m.read i := by
  simp [Memory.read_write, h]

theorem Memory.ofBytes_cons (a : Nat) (v : Byte) (vs : List Byte) :
    Memory.ofBytes a (v :: vs) = if v = 0#8 then Memory.ofBytes (a + 1) vs else (a, v) :: Memory.ofBytes (a + 1) vs := rfl

theorem Memory.read_ofBytes (bs : List Byte) (a i : Nat) :
    (Memory.ofBytes a bs).read i = if a ≤ i then bs.getD (i - a) 0#8 else 0#8 := by
  induction bs generalizing a with
  | nil => simp [Memory.ofBytes]
  | cons v vs ih =>
    rw [Memory.ofBytes_cons]
    rcases Nat.lt_trichotomy i a with h | rfl | h
    · split <;> simp only [Memory.read_cons, ih] <;> simp [Nat.not_le.mpr h, show ¬a + 1 ≤ i by omega, Nat.ne_of_lt h]
    · split <;> simp_all [Memory.read_cons]
    · obtain ⟨k, hk⟩ : ∃ k, i - a = k + 1 := ⟨i - a - 1, by omega⟩
      have hk' : i - (a + 1) = k := by omega
      split <;>
        simp [Memory.read_cons, ih, hk, hk', show a + 1 ≤ i by omega, show a ≤ i by omega, show i ≠ a by omega]

/-- A whole frame stored: index `i` reads the frame's byte `i`. -/
theorem Memory.read_ofBytes_zero (bs : List Byte) (i : Nat) : (Memory.ofBytes 0 bs).read i = bs.getD i 0#8 := by
  simp [Memory.read_ofBytes]

theorem Memory.ofBytes_replicate (a n : Nat) : Memory.ofBytes a (List.replicate n 0#8) = [] := by
  induction n generalizing a with
  | zero => rfl
  | succ n ih => simp [List.replicate_succ, Memory.ofBytes_cons, ih]

theorem Memory.scrollUp_cons (c : Host.Cell) (m : Memory) :
    Memory.scrollUp (c :: m) =
      if 84 ≤ c.1 ∧ c.1 ≤ 503 then (c.1 - 84, c.2) :: Memory.scrollUp m else Memory.scrollUp m := by
  obtain ⟨a, v⟩ := c
  simp only [Memory.scrollUp, cond_eq_ite, Bool.and_eq_true, Nat.ble_eq]

/-- Rows 1..5 have moved to rows 0..4 and the last row is zero (R88, R91). -/
theorem Memory.read_scrollUp (m : Memory) (i : Nat) : m.scrollUp.read i = if i < 420 then m.read (i + 84) else 0#8 := by
  induction m with
  | nil => simp [Memory.scrollUp]
  | cons c m ih =>
    rw [Memory.scrollUp_cons]
    split <;> simp only [Memory.read_cons, ih] <;> split_ifs <;> first | rfl | omega

@[simp] theorem Memory.bytes_length (m : Memory) (a n : Nat) : (m.bytes a n).length = n := by simp [Memory.bytes]

@[simp] theorem Memory.bytes_getElem (m : Memory) (a n i : Nat) (h : i < (m.bytes a n).length) :
    (m.bytes a n)[i] = m.read (a + i) := by simp [Memory.bytes]

/-! ### The canonical form -/

theorem Memory.wfFrom_cons (lo : Nat) (c : Host.Cell) (m : Memory) :
    Memory.wfFrom lo (c :: m) = true ↔ lo ≤ c.1 ∧ c.1 < 504 ∧ c.2 ≠ 0#8 ∧ Memory.wfFrom (c.1 + 1) m = true := by
  obtain ⟨a, v⟩ := c
  simp [Memory.wfFrom, and_assoc]

theorem Memory.wfFrom_mono {m : Memory} {lo hi : Nat} (h : lo ≤ hi) (hm : Memory.wfFrom hi m = true) :
    Memory.wfFrom lo m = true := by
  cases m with
  | nil => rfl
  | cons c m => rw [Memory.wfFrom_cons] at *; exact ⟨by omega, hm.2⟩

theorem Memory.wfFrom_erase {m : Memory} {lo : Nat} (a : Nat) (h : Memory.wfFrom lo m = true) :
    Memory.wfFrom lo (Memory.erase m a) = true := by
  induction m generalizing lo with
  | nil => rfl
  | cons c m ih =>
    rw [Memory.wfFrom_cons] at h
    rw [Memory.erase_cons]
    split
    · exact Memory.wfFrom_mono (by omega) (ih h.2.2.2)
    · exact (Memory.wfFrom_cons ..).mpr ⟨h.1, h.2.1, h.2.2.1, ih h.2.2.2⟩

theorem Memory.wfFrom_insert {m : Memory} {lo a : Nat} {v : Byte} (hlo : lo ≤ a) (ha : a < 504) (hv : v ≠ 0#8)
    (hm : ∀ c ∈ m, c.1 ≠ a) (h : Memory.wfFrom lo m = true) : Memory.wfFrom lo (Memory.insert m a v) = true := by
  induction m generalizing lo with
  | nil => simp [Memory.insert, hlo, ha, hv, Memory.wfFrom]
  | cons c m ih =>
    have hc : c.1 ≠ a := hm c List.mem_cons_self
    rw [Memory.wfFrom_cons] at h
    rw [Memory.insert_cons]
    split
    · refine (Memory.wfFrom_cons ..).mpr ⟨hlo, ha, hv, (Memory.wfFrom_cons ..).mpr ⟨?_, h.2⟩⟩
      show a + 1 ≤ c.1
      omega
    · exact (Memory.wfFrom_cons ..).mpr
        ⟨h.1, h.2.1, h.2.2.1, ih (by omega) (fun c' hc' => hm c' (List.mem_cons_of_mem _ hc')) h.2.2.2⟩

/-- A write inside 0..503 keeps the canonical form. -/
theorem Memory.wf_write {m : Memory} {a : Nat} (v : Byte) (ha : a < 504) (h : m.wf = true) : (m.write a v).wf = true := by
  unfold Memory.write
  split
  · exact Memory.wfFrom_erase a h
  · exact Memory.wfFrom_insert (Nat.zero_le a) ha ‹_› (fun _ hc => Memory.ne_of_mem_erase hc) (Memory.wfFrom_erase a h)

theorem Memory.wfFrom_ofBytes (bs : List Byte) (a : Nat) (h : a + bs.length ≤ 504) :
    Memory.wfFrom a (Memory.ofBytes a bs) = true := by
  induction bs generalizing a with
  | nil => rfl
  | cons v vs ih =>
    rw [List.length_cons] at h
    rw [Memory.ofBytes_cons]
    have hrest := ih (a + 1) (by omega)
    split
    · exact Memory.wfFrom_mono (by omega) hrest
    · exact (Memory.wfFrom_cons ..).mpr ⟨le_refl a, by show a < 504; omega, ‹_›, hrest⟩

/-- A stored frame is in canonical form. -/
theorem Memory.wf_ofBytes {bs : List Byte} (h : bs.length ≤ 504) : (Memory.ofBytes 0 bs).wf = true :=
  Memory.wfFrom_ofBytes bs 0 (by omega)

theorem Memory.wfFrom_scrollUp {m : Memory} {lo : Nat} (h : Memory.wfFrom lo m = true) :
    Memory.wfFrom (lo - 84) m.scrollUp = true := by
  induction m generalizing lo with
  | nil => rfl
  | cons c m ih =>
    rw [Memory.wfFrom_cons] at h
    rw [Memory.scrollUp_cons]
    split
    · refine (Memory.wfFrom_cons ..).mpr ⟨?_, ?_, h.2.2.1, Memory.wfFrom_mono ?_ (ih h.2.2.2)⟩ <;> dsimp only <;> omega
    · exact Memory.wfFrom_mono (by omega) (ih h.2.2.2)

/-- A scroll keeps the canonical form. -/
theorem Memory.wf_scrollUp {m : Memory} (h : m.wf = true) : m.scrollUp.wf = true := Memory.wfFrom_scrollUp h

theorem Memory.read_of_wfFrom_lt {m : Memory} {lo i : Nat} (h : Memory.wfFrom lo m = true) (hi : i < lo) :
    m.read i = 0#8 := by
  induction m generalizing lo with
  | nil => rfl
  | cons c m ih =>
    rw [Memory.wfFrom_cons] at h
    rw [Memory.read_cons, if_neg (by omega)]
    exact ih h.2.2.2 (by omega)

/-- Nothing is listed at 504 or above. -/
theorem Memory.read_of_wf_ge {m : Memory} {i : Nat} (h : m.wf = true) (hi : 504 ≤ i) : m.read i = 0#8 := by
  suffices ∀ (m : Memory) (lo : Nat), Memory.wfFrom lo m = true → m.read i = 0#8 from this m 0 h
  intro m
  induction m with
  | nil => intro _ _; rfl
  | cons c m ih =>
    intro lo hm
    rw [Memory.wfFrom_cons] at hm
    rw [Memory.read_cons, if_neg (by omega)]
    exact ih _ hm.2.2.2

theorem Memory.ext_wfFrom {m n : Memory} {lo : Nat} (hm : Memory.wfFrom lo m = true) (hn : Memory.wfFrom lo n = true)
    (h : ∀ i, m.read i = n.read i) : m = n := by
  induction m generalizing n lo with
  | nil =>
    cases n with
    | nil => rfl
    | cons d n =>
      rw [Memory.wfFrom_cons] at hn
      have := h d.1
      simp [Memory.read_cons] at this
      exact absurd this.symm hn.2.2.1
  | cons c m ih =>
    rw [Memory.wfFrom_cons] at hm
    cases n with
    | nil =>
      have := h c.1
      simp [Memory.read_cons] at this
      exact absurd this hm.2.2.1
    | cons d n =>
      rw [Memory.wfFrom_cons] at hn
      have hcd : c.1 = d.1 := by
        rcases Nat.lt_trichotomy c.1 d.1 with hlt | heq | hgt
        · have := h c.1
          rw [Memory.read_cons, if_pos rfl, Memory.read_cons, if_neg (by omega),
            Memory.read_of_wfFrom_lt hn.2.2.2 (by omega)] at this
          exact absurd this hm.2.2.1
        · exact heq
        · have := h d.1
          rw [Memory.read_cons, if_neg (by omega), Memory.read_of_wfFrom_lt hm.2.2.2 (by omega), Memory.read_cons,
            if_pos rfl] at this
          exact absurd this.symm hn.2.2.1
      have hval : c.2 = d.2 := by
        have := h c.1
        rwa [Memory.read_cons, if_pos rfl, Memory.read_cons, if_pos hcd] at this
      have hrest : m = n := by
        refine ih hm.2.2.2 (hcd ▸ hn.2.2.2) fun i => ?_
        by_cases hi : i = c.1
        · subst hi
          rw [Memory.read_of_wfFrom_lt hm.2.2.2 (by omega), Memory.read_of_wfFrom_lt hn.2.2.2 (by omega)]
        · have := h i
          rwa [Memory.read_cons, if_neg hi, Memory.read_cons, if_neg (hcd ▸ hi)] at this
      rw [hrest, Prod.ext hcd hval]

/-- Two memories in canonical form that read alike are the same memory. -/
theorem Memory.ext_wf {m n : Memory} (hm : m.wf = true) (hn : n.wf = true) (h : ∀ i, i < 504 → m.read i = n.read i) :
    m = n := by
  refine Memory.ext_wfFrom hm hn fun i => ?_
  rcases Nat.lt_or_ge i 504 with hi | hi
  · exact h i hi
  · rw [Memory.read_of_wf_ge hm hi, Memory.read_of_wf_ge hn hi]

end Sys2Proof.Machine
end

