-- ==== Sys2Proof/Laws/State.lean ====
section
/-! SUPPORT. One lemma for each field of the state and each operation that updates it, so that no later proof unfolds a
record update. -/

namespace Sys2Proof.Machine

variable (s : State)

@[simp] theorem emit_mode (es : List Event) : (emit es s).mode = s.mode := rfl
@[simp] theorem emit_cur (es : List Event) : (emit es s).cur = s.cur := rfl
@[simp] theorem emit_sh (es : List Event) : (emit es s).sh = s.sh := rfl
@[simp] theorem emit_cfg (es : List Event) : (emit es s).cfg = s.cfg := rfl
@[simp] theorem emit_status (es : List Event) : (emit es s).status = s.status := rfl
@[simp] theorem emit_log (es : List Event) : (emit es s).log = s.log ++ es := rfl
@[simp] theorem emit_port (es : List Event) : (emit es s).port = s.port := rfl
@[simp] theorem emit_responses (es : List Event) : (emit es s).responses = s.responses := rfl

@[simp] theorem emitData_mode (bs : List Byte) : (emitData bs s).mode = s.mode := rfl
@[simp] theorem emitData_cur (bs : List Byte) : (emitData bs s).cur = s.cur := rfl
@[simp] theorem emitData_sh (bs : List Byte) : (emitData bs s).sh = s.sh := rfl
@[simp] theorem emitData_cfg (bs : List Byte) : (emitData bs s).cfg = s.cfg := rfl
@[simp] theorem emitData_status (bs : List Byte) : (emitData bs s).status = s.status := rfl
@[simp] theorem emitData_log (bs : List Byte) : (emitData bs s).log = s.log ++ bs.map Event.dat := rfl
@[simp] theorem emitData_port (bs : List Byte) : (emitData bs s).port = s.port := rfl
@[simp] theorem emitData_responses (bs : List Byte) : (emitData bs s).responses = s.responses := rfl

@[simp] theorem set_mode (col : Fin 84) (row : Fin 6) (v : Byte) : (set col row v s).mode = s.mode := rfl
@[simp] theorem set_cur (col : Fin 84) (row : Fin 6) (v : Byte) : (set col row v s).cur = s.cur := rfl
@[simp] theorem set_sh (col : Fin 84) (row : Fin 6) (v : Byte) : (set col row v s).sh = s.sh.write (offset col row) v := rfl
@[simp] theorem set_cfg (col : Fin 84) (row : Fin 6) (v : Byte) : (set col row v s).cfg = s.cfg := rfl
@[simp] theorem set_status (col : Fin 84) (row : Fin 6) (v : Byte) : (set col row v s).status = s.status := rfl
@[simp] theorem set_log (col : Fin 84) (row : Fin 6) (v : Byte) : (set col row v s).log = s.log := rfl
@[simp] theorem set_port (col : Fin 84) (row : Fin 6) (v : Byte) : (set col row v s).port = s.port := rfl
@[simp] theorem set_responses (col : Fin 84) (row : Fin 6) (v : Byte) : (set col row v s).responses = s.responses := rfl

@[simp] theorem storeShadow_mode (bs : List Byte) : (storeShadow bs s).mode = s.mode := rfl
@[simp] theorem storeShadow_cur (bs : List Byte) : (storeShadow bs s).cur = s.cur := rfl
@[simp] theorem storeShadow_sh (bs : List Byte) : (storeShadow bs s).sh = Memory.ofBytes 0 bs := rfl
@[simp] theorem storeShadow_cfg (bs : List Byte) : (storeShadow bs s).cfg = s.cfg := rfl
@[simp] theorem storeShadow_status (bs : List Byte) : (storeShadow bs s).status = s.status := rfl
@[simp] theorem storeShadow_log (bs : List Byte) : (storeShadow bs s).log = s.log := rfl
@[simp] theorem storeShadow_port (bs : List Byte) : (storeShadow bs s).port = s.port := rfl
@[simp] theorem storeShadow_responses (bs : List Byte) : (storeShadow bs s).responses = s.responses := rfl

@[simp] theorem shiftShadow_mode : (shiftShadow s).mode = s.mode := rfl
@[simp] theorem shiftShadow_cur : (shiftShadow s).cur = s.cur := rfl
@[simp] theorem shiftShadow_sh : (shiftShadow s).sh = s.sh.scrollUp := rfl
@[simp] theorem shiftShadow_cfg : (shiftShadow s).cfg = s.cfg := rfl
@[simp] theorem shiftShadow_status : (shiftShadow s).status = s.status := rfl
@[simp] theorem shiftShadow_log : (shiftShadow s).log = s.log := rfl
@[simp] theorem shiftShadow_port : (shiftShadow s).port = s.port := rfl
@[simp] theorem shiftShadow_responses : (shiftShadow s).responses = s.responses := rfl

@[simp] theorem respond_mode (v : Value) : (respond v s).mode = s.mode := rfl
@[simp] theorem respond_cur (v : Value) : (respond v s).cur = s.cur := rfl
@[simp] theorem respond_sh (v : Value) : (respond v s).sh = s.sh := rfl
@[simp] theorem respond_cfg (v : Value) : (respond v s).cfg = s.cfg := rfl
@[simp] theorem respond_status (v : Value) : (respond v s).status = s.status := rfl
@[simp] theorem respond_log (v : Value) : (respond v s).log = s.log := rfl
@[simp] theorem respond_port (v : Value) : (respond v s).port = s.port := rfl
@[simp] theorem respond_responses (v : Value) : (respond v s).responses = s.responses ++ [⟨readStatus s.status, 0#3, v⟩] := rfl

@[simp] theorem raise_mode (e : ErrCode) : (raise e s).mode = s.mode := rfl
@[simp] theorem raise_cur (e : ErrCode) : (raise e s).cur = s.cur := rfl
@[simp] theorem raise_sh (e : ErrCode) : (raise e s).sh = s.sh := rfl
@[simp] theorem raise_cfg (e : ErrCode) : (raise e s).cfg = s.cfg := rfl
@[simp] theorem raise_status (e : ErrCode) : (raise e s).status = recordErr s.status e := rfl
@[simp] theorem raise_log (e : ErrCode) : (raise e s).log = s.log := rfl
@[simp] theorem raise_port (e : ErrCode) : (raise e s).port = s.port := rfl
@[simp] theorem raise_responses (e : ErrCode) : (raise e s).responses = s.responses ++ [⟨readStatus (recordErr s.status e), e.code, .none⟩] := rfl

@[simp] theorem presentNext_mode (r : Request) : (presentNext r s).mode = s.mode := rfl
@[simp] theorem presentNext_cur (r : Request) : (presentNext r s).cur = s.cur := rfl
@[simp] theorem presentNext_sh (r : Request) : (presentNext r s).sh = s.sh := rfl
@[simp] theorem presentNext_cfg (r : Request) : (presentNext r s).cfg = s.cfg := rfl
@[simp] theorem presentNext_status (r : Request) : (presentNext r s).status = s.status := rfl
@[simp] theorem presentNext_log (r : Request) : (presentNext r s).log = s.log := rfl
@[simp] theorem presentNext_port (r : Request) : (presentNext r s).port = r :: s.port := rfl
@[simp] theorem presentNext_responses (r : Request) : (presentNext r s).responses = s.responses := rfl

@[simp] theorem present_mode (r : Request) : (present r s).mode = s.mode := rfl
@[simp] theorem present_cur (r : Request) : (present r s).cur = s.cur := rfl
@[simp] theorem present_sh (r : Request) : (present r s).sh = s.sh := rfl
@[simp] theorem present_cfg (r : Request) : (present r s).cfg = s.cfg := rfl
@[simp] theorem present_status (r : Request) : (present r s).status = s.status := rfl
@[simp] theorem present_log (r : Request) : (present r s).log = s.log := rfl
@[simp] theorem present_port (r : Request) : (present r s).port = s.port ++ [r] := rfl
@[simp] theorem present_responses (r : Request) : (present r s).responses = s.responses := rfl

/-! SET_CURSOR_BODY changes the cursor and the log, and only where both coordinates are in range. -/

theorem setCursorBody_of_lt {col row : Nat} (hc : col < 84) (hr : row < 6) :
    setCursorBody col row s = { s with cur := ⟨⟨col, hc⟩, ⟨row, hr⟩⟩, log := s.log ++ positioning s.cfg col row } := by
  simp [setCursorBody, hc, hr, emit]

theorem setCursorBody_of_not {col row : Nat} (h : ¬(col < 84 ∧ row < 6)) : setCursorBody col row s = s := by
  simp only [setCursorBody, h, dite_false]

@[simp] theorem setCursorBody_mode (col row : Nat) : (setCursorBody col row s).mode = s.mode := by
  unfold setCursorBody; split <;> rfl
@[simp] theorem setCursorBody_sh (col row : Nat) : (setCursorBody col row s).sh = s.sh := by
  unfold setCursorBody; split <;> rfl
@[simp] theorem setCursorBody_cfg (col row : Nat) : (setCursorBody col row s).cfg = s.cfg := by
  unfold setCursorBody; split <;> rfl
@[simp] theorem setCursorBody_status (col row : Nat) : (setCursorBody col row s).status = s.status := by
  unfold setCursorBody; split <;> rfl
@[simp] theorem setCursorBody_port (col row : Nat) : (setCursorBody col row s).port = s.port := by
  unfold setCursorBody; split <;> rfl
@[simp] theorem setCursorBody_responses (col row : Nat) : (setCursorBody col row s).responses = s.responses := by
  unfold setCursorBody; split <;> rfl

end Sys2Proof.Machine
end

