-- ==== Sys2Proof/Laws/Ops.lean ====
section
/-! SUPPORT. One lemma for each shared operation that says everything it does, as an update of the state it starts from. -/

namespace Sys2Proof.Machine

/-- The events of a byte sequence. -/
abbrev dataEvents (bs : List Byte) : List Event := bs.map Event.dat

/-- The events of CLEAR_BODY (R70). -/
def clearEvents (c : Cfg) : List Event :=
  positioning c 0 0 ++ (dataEvents (zeros 504) ++ positioning c 0 0)

/-- The events of SCROLL_BODY (R88) from the cursor `(col, row)`, for the shadow `sh` as it is once shifted. -/
def scrollEvents (c : Cfg) (sh : Memory) (col row : Nat) : List Event :=
  positioning c 0 0 ++ (dataEvents (sh.bytes 0 420 ++ zeros 84) ++ positioning c col (row - 1))

/-- The events of DRAW_BUFFER (R92). -/
def uploadEvents (c : Cfg) (frame : List Byte) : List Event :=
  [.cmd c.cmdFsVert] ++ (positioning c 0 0 ++ (dataEvents frame ++ ([.cmd c.cmdFsBasic] ++ positioning c 0 0)))

/-- The events of POWER_DOWN (R97) from the cursor `(col, row)`. -/
def powerDownEvents (c : Cfg) (col row : Nat) : List Event :=
  positioning c 0 0 ++ (dataEvents (zeros 504) ++ (positioning c col row ++ [.cmd c.cmdFsPd]))

/-- The events of one iteration of BLINK (R100) over the shadow bytes `bs`. -/
def blinkEvents (c : Cfg) (bs : List Byte) : List Event :=
  positioning c 0 0 ++ (dataEvents (bs.map fun b => ~~~b) ++ ([.delay c.blinkDelay] ++
    (positioning c 0 0 ++ dataEvents bs)))

@[simp] theorem zeros_length (n : Nat) : (zeros n).length = n := List.length_replicate

theorem zeros_getD (n i : Nat) : (zeros n).getD i 0#8 = 0#8 := by
  unfold zeros
  rw [List.getD_eq_getElem?_getD, List.getElem?_replicate]
  split <;> rfl

theorem ofBytes_zeros (a n : Nat) : Memory.ofBytes a (zeros n) = [] := Memory.ofBytes_replicate a n

theorem positioning_length (c : Cfg) (col row : Nat) : (positioning c col row).length = 2 := rfl

/-! ### The bodies -/

theorem setCursorBody_cur (s : State) (col : Fin 84) (row : Fin 6) :
    setCursorBody col row s = { s with cur := ⟨col, row⟩, log := s.log ++ positioning s.cfg col row } :=
  setCursorBody_of_lt s col.isLt row.isLt

theorem setCursorBody_origin (s : State) :
    setCursorBody 0 0 s = { s with cur := ⟨0, 0⟩, log := s.log ++ positioning s.cfg 0 0 } :=
  setCursorBody_of_lt s (by omega) (by omega)

theorem clearBody_eq (s : State) :
    clearBody s = { s with cur := ⟨0, 0⟩, sh := [], log := s.log ++ clearEvents s.cfg } := by
  simp [clearBody, setCursorBody_origin, storeShadow, emitData, emit, ofBytes_zeros, clearEvents]

theorem initBody_eq (s : State) :
    initBody s = { s with mode := .ready, cur := ⟨0, 0⟩, sh := []
                          log := s.log ++ (initCommands s.cfg ++ clearEvents s.cfg) } := by
  simp [initBody, clearBody_eq, emit]

theorem scrollBody_eq (s : State) :
    scrollBody s = { s with cur := ⟨s.cur.col, ⟨s.cur.row - 1, by omega⟩⟩, sh := s.sh.scrollUp
                            log := s.log ++ scrollEvents s.cfg s.sh.scrollUp s.cur.col s.cur.row } := by
  have hrow : s.cur.row.val - 1 < 6 := by omega
  simp [scrollBody, setCursorBody_origin, shiftShadow, emitData, emit, setCursorBody_of_lt _ s.cur.col.isLt hrow,
    scrollEvents]

theorem newLineBody_of_lt (s : State) (h : s.cur.row.val < 5) :
    newLineBody s = { s with cur := ⟨0, ⟨s.cur.row + 1, by omega⟩⟩
                             log := s.log ++ positioning s.cfg 0 (s.cur.row + 1) } := by
  have hmod : (s.cur.row.val + 1) % 6 = s.cur.row.val + 1 := Nat.mod_eq_of_lt (by omega)
  have hne : ¬s.cur.row.val = 5 := by omega
  simp only [newLineBody, hne, if_false, hmod]
  exact setCursorBody_of_lt s (by omega) (by omega)

theorem newLineBody_of_last (s : State) (h : s.cur.row.val = 5) :
    newLineBody s = { s with cur := ⟨0, 5⟩, sh := s.sh.scrollUp
                             log := s.log ++ (scrollEvents s.cfg s.sh.scrollUp s.cur.col 5 ++ positioning s.cfg 0 5) } := by
  simp only [newLineBody, h, if_true, scrollBody_eq]
  rw [setCursorBody_of_lt _ (by omega) (by omega)]
  simp [List.append_assoc]

theorem advance_of_lt (s : State) (h : s.cur.col.val < 83) :
    advance s = { s with cur := ⟨⟨s.cur.col + 1, by omega⟩, s.cur.row⟩
                         log := s.log ++ positioning s.cfg (s.cur.col + 1) s.cur.row } := by
  have hne : ¬s.cur.col.val + 1 = 84 := by omega
  simp only [advance, hne, if_false]
  exact setCursorBody_of_lt s (by omega) s.cur.row.isLt

theorem advance_of_row_end (s : State) (hc : s.cur.col.val = 83) (hr : s.cur.row.val < 5) :
    advance s = { s with cur := ⟨0, ⟨s.cur.row + 1, by omega⟩⟩
                         log := s.log ++ positioning s.cfg 0 (s.cur.row + 1) } := by
  have hne : ¬s.cur.row.val = 5 := by omega
  simp only [advance, hc, hne, if_false]
  exact setCursorBody_of_lt s (by omega) (by omega)

theorem advance_of_screen_end (s : State) (hc : s.cur.col.val = 83) (hr : s.cur.row.val = 5) :
    advance s = { s with cur := ⟨0, 5⟩, sh := s.sh.scrollUp
                         log := s.log ++ (scrollEvents s.cfg s.sh.scrollUp 0 5 ++ positioning s.cfg 0 5) } := by
  simp only [advance, hc, hr, if_true, scrollBody_eq]
  rw [setCursorBody_of_lt _ (by omega) (by omega)]
  simp [List.append_assoc]

theorem drawBufferBody_eq (frame : List Byte) (s : State) :
    drawBufferBody frame s = { s with cur := ⟨0, 0⟩, sh := Memory.ofBytes 0 frame
                                      log := s.log ++ uploadEvents s.cfg frame } := by
  simp [drawBufferBody, setCursorBody_origin, storeShadow, emitData, emit, uploadEvents]

theorem powerDownBody_eq (s : State) :
    powerDownBody s = { s with log := s.log ++ powerDownEvents s.cfg s.cur.col s.cur.row } := by
  simp [powerDownBody, setCursorBody_origin, setCursorBody_cur, emitData, emit, powerDownEvents]

theorem blinkOnce_eq (s : State) :
    blinkOnce s = { s with cur := ⟨0, 0⟩, log := s.log ++ blinkEvents s.cfg (shadow s) } := by
  simp [blinkOnce, setCursorBody_origin, emitData, emit, blinkEvents, shadow]

theorem blinkLoop_eq (n : Nat) (s : State) :
    blinkLoop n s = { s with cur := if n = 0 then s.cur else ⟨0, 0⟩
                             log := s.log ++ (List.replicate n (blinkEvents s.cfg (shadow s))).flatten } := by
  induction n generalizing s with
  | zero => simp [blinkLoop]
  | succ n ih => simp [blinkLoop, ih, blinkOnce_eq, shadow, List.replicate_succ]

theorem blinkBody_eq (n : Nat) (s : State) :
    blinkBody n s = if n = 0 then s else
      { s with log := s.log ++ ((List.replicate n (blinkEvents s.cfg (shadow s))).flatten ++
                                positioning s.cfg s.cur.col s.cur.row) } := by
  unfold blinkBody
  split
  · rfl
  · simp [blinkLoop_eq, setCursorBody_cur]

/-! ### One byte of text -/

theorem putByte_of_lt (s : State) (b : Byte) (h : s.cur.col.val < 83) :
    putByte s b = { s with cur := ⟨⟨s.cur.col + 1, by omega⟩, s.cur.row⟩
                           sh := s.sh.write (offset s.cur.col s.cur.row) b
                           log := s.log ++ (.dat b :: positioning s.cfg (s.cur.col + 1) s.cur.row) } := by
  rw [putByte, advance_of_lt (set s.cur.col s.cur.row b (emitData [b] s)) h]
  simp

theorem putByte_of_row_end (s : State) (b : Byte) (hc : s.cur.col.val = 83) (hr : s.cur.row.val < 5) :
    putByte s b = { s with cur := ⟨0, ⟨s.cur.row + 1, by omega⟩⟩
                           sh := s.sh.write (offset s.cur.col s.cur.row) b
                           log := s.log ++ (.dat b :: positioning s.cfg 0 (s.cur.row + 1)) } := by
  rw [putByte, advance_of_row_end (set s.cur.col s.cur.row b (emitData [b] s)) hc hr]
  simp

theorem putByte_of_screen_end (s : State) (b : Byte) (hc : s.cur.col.val = 83) (hr : s.cur.row.val = 5) :
    putByte s b = { s with cur := ⟨0, 5⟩
                           sh := (s.sh.write (offset s.cur.col s.cur.row) b).scrollUp
                           log := s.log ++ (.dat b :: (scrollEvents s.cfg
                             (s.sh.write (offset s.cur.col s.cur.row) b).scrollUp 0 5 ++ positioning s.cfg 0 5)) } := by
  rw [putByte, advance_of_screen_end (set s.cur.col s.cur.row b (emitData [b] s)) hc hr]
  simp

/-! ### What every text body leaves alone -/

/-- A text body changes the cursor, the shadow and the log, extends the log, and keeps the shadow's canonical form. -/
structure TextStep (s t : State) : Prop where
  mode      : t.mode = s.mode
  cfg       : t.cfg = s.cfg
  status    : t.status = s.status
  port      : t.port = s.port
  responses : t.responses = s.responses
  log       : ∃ es, t.log = s.log ++ es
  wf        : s.sh.wf = true → t.sh.wf = true

theorem TextStep.refl (s : State) : TextStep s s := ⟨rfl, rfl, rfl, rfl, rfl, ⟨[], by simp⟩, id⟩

theorem TextStep.trans {s t u : State} (h₁ : TextStep s t) (h₂ : TextStep t u) : TextStep s u :=
  ⟨h₂.mode.trans h₁.mode, h₂.cfg.trans h₁.cfg, h₂.status.trans h₁.status, h₂.port.trans h₁.port,
    h₂.responses.trans h₁.responses,
    by obtain ⟨es, he⟩ := h₁.log; obtain ⟨fs, hf⟩ := h₂.log; exact ⟨es ++ fs, by rw [hf, he, List.append_assoc]⟩,
    fun h => h₂.wf (h₁.wf h)⟩

theorem putByte_textStep (s : State) (b : Byte) : TextStep s (putByte s b) := by
  have hw : s.sh.wf = true → (s.sh.write (offset s.cur.col s.cur.row) b).wf = true :=
    Memory.wf_write b (offset s.cur.col s.cur.row).isLt
  rcases Nat.lt_or_ge s.cur.col.val 83 with hc | hc
  · rw [putByte_of_lt s b hc]; exact ⟨rfl, rfl, rfl, rfl, rfl, ⟨_, rfl⟩, hw⟩
  · have hc : s.cur.col.val = 83 := by omega
    rcases Nat.lt_or_ge s.cur.row.val 5 with hr | hr
    · rw [putByte_of_row_end s b hc hr]; exact ⟨rfl, rfl, rfl, rfl, rfl, ⟨_, rfl⟩, hw⟩
    · rw [putByte_of_screen_end s b hc (by omega)]
      exact ⟨rfl, rfl, rfl, rfl, rfl, ⟨_, rfl⟩, fun h => Memory.wf_scrollUp (hw h)⟩

theorem foldl_textStep {α : Type} {f : State → α → State} (hf : ∀ s a, TextStep s (f s a)) (as : List α) (s : State) :
    TextStep s (as.foldl f s) := by
  induction as generalizing s with
  | nil => exact TextStep.refl s
  | cons a as ih => exact (hf s a).trans (ih (f s a))

theorem printCharBody_textStep (g : Fin 95) (s : State) : TextStep s (printCharBody g s) :=
  foldl_textStep putByte_textStep _ s

theorem newLineBody_textStep (s : State) : TextStep s (newLineBody s) := by
  rcases Nat.lt_or_ge s.cur.row.val 5 with hr | hr
  · rw [newLineBody_of_lt s hr]; exact ⟨rfl, rfl, rfl, rfl, rfl, ⟨_, rfl⟩, id⟩
  · rw [newLineBody_of_last s (by omega)]; exact ⟨rfl, rfl, rfl, rfl, rfl, ⟨_, rfl⟩, Memory.wf_scrollUp⟩

theorem printByte_textStep (s : State) (b : Byte) : TextStep s (printByte s b) := by
  unfold printByte
  split
  · exact printCharBody_textStep _ s
  · split
    · exact newLineBody_textStep s
    · exact printCharBody_textStep _ s

theorem printText_textStep (text : List Byte) (s : State) : TextStep s (text.foldl printByte s) :=
  foldl_textStep printByte_textStep text s

/-! ### The mode gate -/

theorem whenReady_of_ready {body : State → State} {s : State} (h : s.mode = .ready) : whenReady body s = body s := by
  simp [whenReady, h]

theorem whenReady_of_uninit {body : State → State} {s : State} (h : s.mode = .uninit) :
    whenReady body s = raise .notReady s := by
  simp [whenReady, h]

/-! ### The status register -/

theorem errField_recordErr (st : Byte) (e : ErrCode) :
    errField (recordErr st e) = if errField st = 0#3 then e.code else errField st := by
  unfold recordErr
  by_cases h : errField st = 0#3
  · simp only [h, beq_self_eq_true, if_true]
    exact BitVec.extractLsb'_append_eq_right
  · simp [h]

/-- Once a code is recorded no fault changes `STATUS` (R22). -/
theorem recordErr_of_ne {st : Byte} (e : ErrCode) (h : errField st ≠ 0#3) : recordErr st e = st := by
  simp [recordErr, h]

end Sys2Proof.Machine
end

