-- ==== Sys2Proof/Laws/Loops.lean ====
section
/-! SUPPORT. The loops of single-byte writes that the rules write (41_lifecycle.md R70, 42_text.md R88, 43_upload.md R92), and
that the moves of Machine/Memory.lean leave the memory the loops leave. -/

namespace Sys2Proof.Machine

/-- The bytes of a list written in ascending order from address `a` on: `for i: MemWrite(a + i, 1, bs[i])`. -/
def Memory.writeFrom : Memory → Nat → List Byte → Memory
  | m, _, [] => m
  | m, a, v :: vs => Memory.writeFrom (m.write a v) (a + 1) vs

/-- `n` bytes moved down one row, one after the other in ascending order from address `a` on: `MemWrite(i, 1, SH[i + 84])`. -/
def Memory.moveDown : Memory → Nat → Nat → Memory
  | m, _, 0 => m
  | m, a, n + 1 => Memory.moveDown (m.write a (m.read (a + 84))) (a + 1) n

theorem Memory.read_writeFrom (bs : List Byte) (m : Memory) (a i : Nat) :
    (m.writeFrom a bs).read i = if a ≤ i ∧ i < a + bs.length then bs.getD (i - a) 0#8 else m.read i := by
  induction bs generalizing m a with
  | nil => simp [Memory.writeFrom]
  | cons v vs ih =>
    rw [Memory.writeFrom, ih, Memory.read_write, List.length_cons]
    rcases Nat.lt_trichotomy i a with h | rfl | h
    · rw [if_neg (by omega), if_neg (by omega), if_neg (by omega)]
    · simp
    · obtain ⟨k, rfl⟩ : ∃ k, i = a + 1 + k := ⟨i - a - 1, by omega⟩
      rw [show a + 1 + k - a = k + 1 by omega, show a + 1 + k - (a + 1) = k by omega, List.getD_cons_succ]
      split_ifs <;> first | rfl | omega

theorem Memory.wf_writeFrom {bs : List Byte} {m : Memory} {a : Nat} (h : a + bs.length ≤ 504) (hm : m.wf = true) :
    (m.writeFrom a bs).wf = true := by
  induction bs generalizing m a with
  | nil => exact hm
  | cons v vs ih =>
    rw [List.length_cons] at h
    exact ih (by omega) (Memory.wf_write v (by omega) hm)

theorem Memory.read_moveDown (n : Nat) (m : Memory) (a i : Nat) :
    (m.moveDown a n).read i = if a ≤ i ∧ i < a + n then m.read (i + 84) else m.read i := by
  induction n generalizing m a with
  | zero => simp [Memory.moveDown]
  | succ n ih =>
    rw [Memory.moveDown, ih, Memory.read_write, Memory.read_write]
    rcases Nat.lt_trichotomy i a with h | rfl | h
    · rw [if_neg (by omega), if_neg (by omega), if_neg (by omega)]
    · simp
    · split_ifs <;> first | rfl | omega

theorem Memory.wf_moveDown {n : Nat} {m : Memory} {a : Nat} (h : a + n ≤ 504) (hm : m.wf = true) :
    (m.moveDown a n).wf = true := by
  induction n generalizing m a with
  | zero => exact hm
  | succ n ih => exact ih (by omega) (Memory.wf_write _ (by omega) hm)

/-- `for i in 0 .. 503: MemWrite(i, 1, bs[i])` leaves the memory `ofBytes` builds. -/
theorem Memory.writeFrom_whole {m : Memory} {bs : List Byte} (hm : m.wf = true) (hbs : bs.length = 504) :
    m.writeFrom 0 bs = Memory.ofBytes 0 bs := by
  refine Memory.ext_wf (Memory.wf_writeFrom (by omega) hm) (Memory.wf_ofBytes (by omega)) fun i hi => ?_
  rw [Memory.read_writeFrom, if_pos (by omega), Memory.read_ofBytes_zero, Nat.sub_zero]

/-- The two loops of SCROLL_BODY (R88) leave the memory `scrollUp` builds. -/
theorem Memory.moveDown_scroll {m : Memory} (hm : m.wf = true) :
    (m.moveDown 0 420).writeFrom 420 (zeros 84) = m.scrollUp := by
  refine Memory.ext_wf (Memory.wf_writeFrom (by simp) (Memory.wf_moveDown (by omega) hm)) (Memory.wf_scrollUp hm)
    fun i hi => ?_
  rw [Memory.read_writeFrom, Memory.read_moveDown, Memory.read_scrollUp, zeros_length]
  rcases Nat.lt_or_ge i 420 with h | h
  · rw [if_neg (by omega), if_pos (by omega), if_pos h]
  · rw [if_pos (by omega), if_neg (by omega), zeros_getD]

end Sys2Proof.Machine
end

