-- ==== Sys2Proof/Laws/Device.lean ====
section
/-! SUPPORT. What the reference controller (60_exceptions.md R143 to R149) does with the default command bytes (00_scope.md
R7) and with a stream of data bytes in each addressing mode. -/

namespace Sys2Proof.Machine

theorem Device.run_append (dev : Device) (es fs : List Event) :
    dev.run (es ++ fs) = (dev.run es).bind fun d => d.run fs := by
  induction es generalizing dev with
  | nil => rfl
  | cons e es ih =>
    rw [List.cons_append, Device.run, Device.run]
    cases h : dev.receive e with
    | none => rfl
    | some d => exact ih d

/-- A run cut after its first part. -/
theorem Device.run_append_of {dev d : Device} {es : List Event} (h : dev.run es = some d) (fs : List Event) :
    dev.run (es ++ fs) = d.run fs := by
  rw [Device.run_append, h]; rfl

/-! ### Commands -/

/-- A function set (R144), in either instruction set. -/
theorem Device.run_functionSet (b : Byte) (dev : Device) (h : b.extractLsb' 3 5 = 0b00100#5) :
    dev.run [.cmd b] = some { dev with pd := b.getLsbD 2, v := b.getLsbD 1, h := b.getLsbD 0 } := by
  simp [Device.run, Device.receive, Device.command, h]

/-- The two positioning commands with the default command bytes, in the basic set: the pointer moves there (R73, R145). -/
theorem Device.run_positioning {c : Cfg} (hy : c.cmdSetY = 0x40#8) (hx : c.cmdSetX = 0x80#8) (dev : Device)
    (h : dev.h = false) (col : Fin 84) (row : Fin 6) :
    dev.run (positioning c col row) = some { dev with x := col, y := row } := by
  have rows : ∀ row : Fin 6, let b := 0x40#8 ||| BitVec.ofNat 8 row
      b.extractLsb' 3 5 = 0b01000#5 ∧ b ≠ 0#8 ∧ (b.extractLsb' 0 3).toNat = row.val := by decide
  have cols : ∀ col : Fin 84, let b := 0x80#8 ||| BitVec.ofNat 8 col
      b.extractLsb' 3 5 ≠ 0b00100#5 ∧ b ≠ 0#8 ∧ b.extractLsb' 3 5 ≠ 0b00001#5 ∧ b.extractLsb' 3 5 ≠ 0b01000#5 ∧
        b.getLsbD 7 = true ∧ (b.extractLsb' 0 7).toNat = col.val := by decide
  obtain ⟨r1, r2, r3⟩ := rows row
  obtain ⟨c1, c2, c3, c4, -, c6⟩ := cols col
  have hrow : dev.command (0x40#8 ||| BitVec.ofNat 8 row) = some { dev with y := row } := by
    simp [Device.command, Device.basicCommand, r1, r2, r3, h]
  have hcol : Device.command (0x80#8 ||| BitVec.ofNat 8 col) { dev with y := row } =
      some { dev with x := col, y := row } := by
    simp [Device.command, Device.basicCommand, c1, c2, c3, c4, c6, h]
  simp [positioning, Device.run, Device.receive, hx, hy, hrow, hcol]

/-! ### Streams of data -/

/-- A device with other display RAM and the pointer at the row-major index `q`; 504 is the origin again. -/
def Device.rightAt (dev : Device) (m : Memory) (q : Nat) : Device :=
  { dev with dram := m, x := ⟨q % 84, Nat.mod_lt _ (by omega)⟩, y := ⟨q / 84 % 6, Nat.mod_lt _ (by omega)⟩ }

/-- A device with other display RAM and the pointer at the column-major index `q`; 504 is the origin again. -/
def Device.downAt (dev : Device) (m : Memory) (q : Nat) : Device :=
  { dev with dram := m, x := ⟨q / 6 % 84, Nat.mod_lt _ (by omega)⟩, y := ⟨q % 6, Nat.mod_lt _ (by omega)⟩ }

theorem Device.rightAt_self (dev : Device) : dev.rightAt dev.dram (84 * dev.y.val + dev.x.val) = dev := by
  have hx : (⟨(84 * dev.y.val + dev.x.val) % 84, Nat.mod_lt _ (by omega)⟩ : Fin 84) = dev.x := Fin.ext (by dsimp; omega)
  have hy : (⟨(84 * dev.y.val + dev.x.val) / 84 % 6, Nat.mod_lt _ (by omega)⟩ : Fin 6) = dev.y := Fin.ext (by dsimp; omega)
  rw [Device.rightAt, hx, hy]

theorem Device.downAt_self (dev : Device) : dev.downAt dev.dram (6 * dev.x.val + dev.y.val) = dev := by
  have hx : (⟨(6 * dev.x.val + dev.y.val) / 6 % 84, Nat.mod_lt _ (by omega)⟩ : Fin 84) = dev.x := Fin.ext (by dsimp; omega)
  have hy : (⟨(6 * dev.x.val + dev.y.val) % 6, Nat.mod_lt _ (by omega)⟩ : Fin 6) = dev.y := Fin.ext (by dsimp; omega)
  rw [Device.downAt, hx, hy]

theorem Device.data_rightAt (dev : Device) (m : Memory) {p : Nat} (b : Byte) (hv : dev.v = false) (hp : p < 504) :
    (dev.rightAt m p).data b = dev.rightAt (m.write p b) (p + 1) := by
  have hoff : ((p / 84 % 6) * 84 + p % 84) = p := by omega
  simp only [Device.data, Device.rightAt, offset, hv, hoff, Device.stepRight, Bool.false_eq_true, if_false]
  split
  · simp only [Device.mk.injEq, Fin.mk.injEq, true_and, and_true]; omega
  · split <;> simp only [Device.mk.injEq, true_and, and_true, Fin.ext_iff, Fin.val_zero] <;> omega

theorem Device.data_downAt (dev : Device) (m : Memory) {p : Nat} (b : Byte) (hv : dev.v = true) (hp : p < 504) :
    (dev.downAt m p).data b = dev.downAt (m.write (p % 6 * 84 + p / 6) b) (p + 1) := by
  have hoff : (p / 6 % 84) = p / 6 := by omega
  simp only [Device.data, Device.downAt, offset, hv, hoff, Device.stepDown, if_true]
  split
  · simp only [Device.mk.injEq, Fin.mk.injEq, true_and, and_true]; omega
  · split <;> simp only [Device.mk.injEq, true_and, and_true, Fin.ext_iff, Fin.val_zero] <;> omega

/-- A data stream in horizontal addressing (R147): the bytes land at consecutive row-major indexes. -/
theorem Device.run_rightAt (bs : List Byte) (dev : Device) (m : Memory) (p : Nat) (hv : dev.v = false)
    (hp : p + bs.length ≤ 504) :
    (dev.rightAt m p).run (dataEvents bs) = some (dev.rightAt (m.writeFrom p bs) (p + bs.length)) := by
  induction bs generalizing m p with
  | nil => rfl
  | cons b bs ih =>
    rw [List.length_cons] at hp
    rw [dataEvents, List.map_cons, Device.run, Device.receive, Device.data_rightAt dev m b hv (by omega), Option.bind_some,
      ih _ _ (by omega), List.length_cons, Nat.add_right_comm, Nat.add_assoc, Memory.writeFrom]

/-- Bytes written in column-major order from the column-major index `p` on. -/
def Memory.writeDown : Memory → Nat → List Byte → Memory
  | m, _, [] => m
  | m, p, v :: vs => Memory.writeDown (m.write (p % 6 * 84 + p / 6) v) (p + 1) vs

theorem Memory.read_writeDown (bs : List Byte) (m : Memory) {p c b : Nat} (hb : b < 6) (hp : p + bs.length ≤ 504)
    (hc : c < 84) :
    (m.writeDown p bs).read (84 * b + c) =
      if p ≤ 6 * c + b ∧ 6 * c + b < p + bs.length then bs.getD (6 * c + b - p) 0#8 else m.read (84 * b + c) := by
  induction bs generalizing m p with
  | nil => simp [Memory.writeDown]
  | cons v vs ih =>
    rw [List.length_cons] at hp
    rw [Memory.writeDown, ih _ (by omega), Memory.read_write, List.length_cons]
    rcases Nat.lt_trichotomy (6 * c + b) p with h | h | h
    · rw [if_neg (by omega), if_neg (by omega), if_neg (by omega)]
    · rw [if_neg (by omega), if_pos (by omega), if_pos (by omega), h, Nat.sub_self, List.getD_cons_zero]
    · obtain ⟨k, hk⟩ : ∃ k, 6 * c + b = p + 1 + k := ⟨6 * c + b - p - 1, by omega⟩
      rw [hk, show p + 1 + k - p = k + 1 by omega, show p + 1 + k - (p + 1) = k by omega, List.getD_cons_succ]
      split_ifs <;> first | rfl | omega

/-- A data stream in vertical addressing (R148): the bytes land at consecutive column-major indexes. -/
theorem Device.run_downAt (bs : List Byte) (dev : Device) (m : Memory) (p : Nat) (hv : dev.v = true)
    (hp : p + bs.length ≤ 504) :
    (dev.downAt m p).run (dataEvents bs) = some (dev.downAt (m.writeDown p bs) (p + bs.length)) := by
  induction bs generalizing m p with
  | nil => rfl
  | cons b bs ih =>
    rw [List.length_cons] at hp
    rw [dataEvents, List.map_cons, Device.run, Device.receive, Device.data_downAt dev m b hv (by omega), Option.bind_some,
      ih _ _ (by omega), List.length_cons, Nat.add_right_comm, Nat.add_assoc, Memory.writeDown]

/-- 504 data bytes from the origin, in horizontal addressing: the display RAM is the bytes row by row, and the pointer is at
the origin again. -/
theorem Device.run_whole_right {bs : List Byte} {dev : Device} (hv : dev.v = false) (hx : dev.x = 0) (hy : dev.y = 0)
    (hbs : bs.length = 504) :
    dev.run (dataEvents bs) = some { dev with dram := dev.dram.writeFrom 0 bs, x := 0, y := 0 } := by
  have h := Device.run_rightAt bs dev dev.dram 0 hv (by omega)
  have hself := Device.rightAt_self dev
  rw [hx, hy] at hself
  have h0 : 84 * (0 : Fin 6).val + (0 : Fin 84).val = 0 := rfl
  rw [h0] at hself
  rw [hself, hbs] at h
  exact h

/-- 504 data bytes from the origin, in vertical addressing: byte `6c + b` lands in column `c` of bank `b` (R39). -/
theorem Device.run_whole_down {bs : List Byte} {dev : Device} (hv : dev.v = true) (hx : dev.x = 0) (hy : dev.y = 0)
    (hbs : bs.length = 504) :
    dev.run (dataEvents bs) = some { dev with dram := dev.dram.writeDown 0 bs, x := 0, y := 0 } := by
  have h := Device.run_downAt bs dev dev.dram 0 hv (by omega)
  have hself := Device.downAt_self dev
  rw [hx, hy] at hself
  have h0 : 6 * (0 : Fin 84).val + (0 : Fin 6).val = 0 := rfl
  rw [h0] at hself
  rw [hself, hbs] at h
  exact h

/-- 504 bytes written from index 0 on are what the memory then reads. -/
theorem Memory.read_writeWhole (m : Memory) {bs : List Byte} (hbs : bs.length = 504) {i : Nat} (hi : i < 504) :
    (m.writeFrom 0 bs).read i = bs.getD i 0#8 := by
  rw [Memory.read_writeFrom, if_pos (by omega), Nat.sub_zero]

/-- The bytes SCROLL_BODY streams are the shadow it leaves. -/
theorem getD_scrollStream (m : Memory) (i : Nat) :
    (m.scrollUp.bytes 0 420 ++ zeros 84).getD i 0#8 = m.scrollUp.read i := by
  rw [List.getD_eq_getElem?_getD, List.getElem?_append, Memory.bytes_length]
  split
  · rw [List.getElem?_eq_getElem (by rw [Memory.bytes_length]; assumption), Memory.bytes_getElem, Nat.zero_add]; rfl
  · rw [← List.getD_eq_getElem?_getD, zeros_getD, Memory.read_scrollUp, if_neg ‹_›]

/-! ### The event sequences of the requests, with the default command bytes -/

/-- The default command bytes of R7. -/
abbrev Cfg.isDefault (c : Cfg) : Prop := c = Cfg.withDefaults c.contrast c.blinkDelay c.glyph

theorem Device.run_position {c : Cfg} (hc : Cfg.isDefault c) (dev : Device) (h : dev.h = false) (col : Fin 84)
    (row : Fin 6) : dev.run (positioning c col row) = some { dev with x := col, y := row } :=
  Device.run_positioning (by rw [hc]; rfl) (by rw [hc]; rfl) dev h col row

/-- The same from the origin, with any display RAM. -/
theorem Device.run_position_from {c : Cfg} (hc : Cfg.isDefault c) {dev : Device} (h : dev.h = false) (col : Fin 84)
    (row : Fin 6) (m : Memory) : Device.run { dev with dram := m, x := 0, y := 0 } (positioning c col row) =
      some { dev with dram := m, x := col, y := row } :=
  Device.run_position hc { dev with dram := m, x := 0, y := 0 } h col row

/-- The configuration commands of INIT bring any device to the modes the API assumes (R29, R67). -/
theorem Device.run_initCommands {c : Cfg} (hc : Cfg.isDefault c) (h7 : c.contrast.getLsbD 7 = true) (dev : Device) :
    dev.run (initCommands c) = some { dev with
      pd := false, v := false, h := false, d := true, e := false, tc := 0#2, bs := 4#3
      vop := c.contrast.extractLsb' 0 7 } := by
  have contrast : ∀ b : Byte, b.getLsbD 7 = true → b.extractLsb' 3 5 ≠ 0b00100#5 ∧ b ≠ 0#8 ∧
      b.extractLsb' 2 6 ≠ 0b000001#6 ∧ b.extractLsb' 3 5 ≠ 0b00010#5 := by decide
  obtain ⟨e1, e2, e3, e4⟩ := contrast _ h7
  have bytes : c.cmdFsExt = 0x21#8 ∧ c.cmdTempco = 0x04#8 ∧ c.cmdBias = 0x14#8 ∧ c.cmdFsBasic = 0x20#8 ∧
      c.cmdDispNormal = 0x0C#8 := by rw [hc]; exact ⟨rfl, rfl, rfl, rfl, rfl⟩
  obtain ⟨b1, b2, b3, b4, b5⟩ := bytes
  simp [initCommands, Device.run, Device.receive, Device.command, Device.extendedCommand, Device.basicCommand,
    b1, b2, b3, b4, b5, e1, e2, e3, e4, h7]

/-- A stream of 504 bytes from the origin, and what follows it. -/
theorem Device.run_stream {c : Cfg} (hc : Cfg.isDefault c) {dev : Device} (hh : dev.h = false) (hv : dev.v = false)
    {bs : List Byte} (hbs : bs.length = 504) (rest : List Event) :
    dev.run (positioning c 0 0 ++ (dataEvents bs ++ rest)) =
      Device.run { dev with dram := dev.dram.writeFrom 0 bs, x := 0, y := 0 } rest := by
  have h0 : dev.run (positioning c 0 0) = some { dev with x := 0, y := 0 } := Device.run_position hc dev hh 0 0
  rw [Device.run_append_of h0, Device.run_append_of (Device.run_whole_right (by exact hv) rfl rfl hbs)]

/-- CLEAR_BODY's events (R70). -/
theorem Device.run_clearEvents {c : Cfg} (hc : Cfg.isDefault c) {dev : Device} (hh : dev.h = false) (hv : dev.v = false) :
    dev.run (clearEvents c) = some { dev with dram := dev.dram.writeFrom 0 (zeros 504), x := 0, y := 0 } := by
  unfold clearEvents
  rw [Device.run_stream hc hh hv (zeros_length _)]
  exact Device.run_position_from hc hh 0 0 _

/-- SCROLL_BODY's events (R88). -/
theorem Device.run_scrollEvents {c : Cfg} (hc : Cfg.isDefault c) {dev : Device} (hh : dev.h = false) (hv : dev.v = false)
    (m : Memory) (col : Fin 84) (row : Fin 6) :
    dev.run (scrollEvents c m.scrollUp col row) = some { dev with
      dram := dev.dram.writeFrom 0 (m.scrollUp.bytes 0 420 ++ zeros 84), x := col, y := ⟨row - 1, by omega⟩ } := by
  unfold scrollEvents
  rw [Device.run_stream hc hh hv (by rw [List.length_append, Memory.bytes_length, zeros_length])]
  exact Device.run_position_from hc hh col ⟨row - 1, by omega⟩ _

/-- A function set at the head of a sequence (R144). -/
theorem Device.run_functionSet_cons {b : Byte} (hb : b.extractLsb' 3 5 = 0b00100#5) (dev : Device) (rest : List Event) :
    dev.run (.cmd b :: rest) = Device.run { dev with pd := b.getLsbD 2, v := b.getLsbD 1, h := b.getLsbD 0 } rest := by
  rw [← List.singleton_append, Device.run_append_of (Device.run_functionSet b dev hb)]

end Sys2Proof.Machine
end

