-- ==== Sys2Proof/Laws/Fields.lean ====
section
/-! SUPPORT. The fields of a word and the operands assembled from them, as numbers (30_encoding.md R53 to R57). -/

namespace Sys2Proof

theorem opField_toNat (w : Word) : (opField w).toNat = w.toNat % 256 := by
  simp [opField, BitVec.extractLsb'_toNat]

theorem byte1Field_toNat (w : Word) : (byte1Field w).toNat = w.toNat / 256 % 256 := by
  simp [byte1Field, BitVec.extractLsb'_toNat, Nat.shiftRight_eq_div_pow]

theorem byte2Field_toNat (w : Word) : (byte2Field w).toNat = w.toNat / 65536 % 256 := by
  simp [byte2Field, BitVec.extractLsb'_toNat, Nat.shiftRight_eq_div_pow]

theorem halfField_toNat (w : Word) : (halfField w).toNat = w.toNat / 65536 := by
  have := w.isLt
  simp [halfField, BitVec.extractLsb'_toNat, Nat.shiftRight_eq_div_pow]
  omega

theorem immField_toNat (w : Word) : (immField w).toNat = w.toNat / 256 := by
  have := w.isLt
  simp [immField, BitVec.extractLsb'_toNat, Nat.shiftRight_eq_div_pow]
  omega

/-- A word is the four bytes it is serialized as (R43). -/
theorem wordOfBytes_wordBytes (w : Word) :
    wordOfBytes (w.extractLsb' 0 8) (w.extractLsb' 8 8) (w.extractLsb' 16 8) (w.extractLsb' 24 8) = w := by
  refine BitVec.eq_of_getLsbD_eq fun i hi => ?_
  unfold wordOfBytes
  rw [BitVec.getLsbD_append, BitVec.getLsbD_append, BitVec.getLsbD_append]
  simp only [BitVec.getLsbD_extractLsb']
  split_ifs <;>
    (rw [show decide _ = true from decide_eq_true (by omega), Bool.true_and]; exact congrArg _ (by omega))

/-- What a decoding through a reserved field gives (R59): the operation, and the field is zero. -/
theorem ifZero_ok {k : Nat} {reserved : BitVec k} {w : Word} {h h' : Head} (e : ifZero reserved w h = .ok h') :
    h' = h ∧ reserved = 0 := by
  unfold ifZero at e
  split at e
  · exact ⟨(Except.ok.inj e).symm, ‹_›⟩
  · exact absurd e (by simp)

/-- Why a word is illegal (R59): its operation code is unlisted, or its reserved field is not zero. -/
theorem decodeWord_error {w : Word} {e : DecodeError} (h : decodeWord w = .error e) :
    (∃ op, e = .unlistedOp op) ∨ ∃ op, e = .reservedBits op := by
  unfold decodeWord ifZero at h
  split at h <;> (try split at h) <;>
    first
    | (injection h; done)
    | (obtain rfl := Except.error.inj h; first | exact Or.inl ⟨_, rfl⟩ | exact Or.inr ⟨_, rfl⟩)

namespace Machine

theorem timeStep_eq (t : BitVec 16) : timeStep t = t.toNat := by
  simp only [timeStep, BitVec.toNat_setWidth]
  exact Nat.mod_eq_of_lt (by omega)

theorem squaredDistance_eq (q : BitVec 24) : squaredDistance q = q.toNat := by
  simp only [squaredDistance, BitVec.toNat_setWidth]
  exact Nat.mod_eq_of_lt (by omega)

theorem angle_eq (imm : BitVec 24) : angle imm = imm.toInt := BitVec.toInt_signExtend_of_le (by omega)

theorem asr_eq_ediv (a : Int) (k : Nat) : asr a k = a / 2 ^ k := by
  unfold asr; rw [Int.shiftRight_eq_div_pow]; norm_cast

end Machine
end Sys2Proof
end

