-- ==== Sys2Proof/Laws/Generators.lean ====
section
/-! SUPPORT. The generators' operations (45_generators.md) as counts, divisions and single pixels. -/

namespace Sys2Proof.Machine

/-! ### The sine table -/

theorem sineRom_length : sineRom.length = 91 := by decide

theorem sineRom_bound : ∀ e ∈ sineRom, 0 ≤ e ∧ e ≤ 16777216 := by decide

theorem sineEntry_bound (d : Nat) : 0 ≤ sineEntry d ∧ sineEntry d ≤ 16777216 := by
  unfold sineEntry
  rw [List.getD_eq_getElem?_getD]
  cases h : sineRom[d]? with
  | none => decide
  | some e => exact sineRom_bound e (List.mem_of_getElem? h)

theorem sineTurn_bound (d : Nat) : |sineTurn d| ≤ 16777216 := by
  have half : ∀ k, 0 ≤ sineHalf k ∧ sineHalf k ≤ 16777216 := fun k => by
    unfold sineHalf
    split
    · exact sineEntry_bound k
    · exact sineEntry_bound (180 - k)
  unfold sineTurn
  split
  · rw [abs_of_nonneg (half d).1]; exact (half d).2
  · rw [abs_neg, abs_of_nonneg (half _).1]; exact (half _).2

/-- An angle reduced modulo a turn (R105). -/
theorem sine_of_turn (d : Int) (k : Nat) (h : d % 360 = k) : sine d = sineTurn k := by
  unfold sine; rw [h]; rfl

/-! ### The distance table -/

theorem distRom_eq : distRom = (List.range 127).map fun j => (j + 1) ^ 2 := by decide

theorem thresholdsUpTo_eq_countP {q : Nat} {ts : List Nat} (h : ts.Pairwise (· ≤ ·)) :
    thresholdsUpTo q ts = ts.countP fun t => decide (t ≤ q) := by
  induction ts with
  | nil => rfl
  | cons t ts ih =>
    rw [thresholdsUpTo, cond_eq_ite]
    by_cases ht : t ≤ q
    · rw [if_pos (Nat.ble_eq.mpr ht), List.countP_cons_of_pos (by simpa using ht), ih (List.pairwise_cons.mp h).2]
    · rw [if_neg (by simpa [Nat.ble_eq] using ht), List.countP_cons_of_neg (by simpa using ht), eq_comm,
        List.countP_eq_zero]
      intro u hu
      have := (List.pairwise_cons.mp h).1 u hu
      simpa using (by omega : q < u)

theorem distRom_rising : distRom.Pairwise (· ≤ ·) := by
  rw [distRom_eq, List.pairwise_map]
  exact List.pairwise_lt_range.imp fun h => Nat.pow_le_pow_left (by omega) 2

/-- `dist` is the count R108 writes. -/
theorem dist_eq_countP (q : Nat) : dist q = distRom.countP fun t => decide (t ≤ q) :=
  thresholdsUpTo_eq_countP distRom_rising

/-- The count of the squares up to `q` among those of `1..n`: the root of `q`, at most `n` (R108). -/
theorem countP_squares (n q : Nat) :
    (((List.range n).map fun j => (j + 1) ^ 2).countP fun t => decide (t ≤ q)) = min n (Nat.sqrt q) := by
  induction n with
  | zero => simp
  | succ n ih =>
    rw [List.range_succ, List.map_append, List.countP_append, ih]
    have hsq : (n + 1) ^ 2 ≤ q ↔ n + 1 ≤ Nat.sqrt q := by rw [Nat.le_sqrt, pow_two]
    by_cases h : (n + 1) ^ 2 ≤ q
    · have := hsq.mp h
      simp [h]; omega
    · have := mt hsq.mpr h
      simp [h]; omega

theorem dist_eq_sqrt (q : Nat) : dist q = min 127 (Nat.sqrt q) := by
  rw [dist_eq_countP, distRom_eq, countP_squares]

/-! ### Frames -/

theorem pack_length (lit : Int → Int → Bool) : (pack lit).length = 504 := by
  unfold pack; rw [List.length_map, List.length_range]

theorem pack_getD (lit : Int → Int → Bool) {j : Nat} (h : j < 504) : (pack lit).getD j 0#8 = packStrip lit (j / 6) (j % 6) := by
  unfold pack
  rw [List.getD_eq_getElem?_getD, List.getElem?_map, List.getElem?_range h]; rfl

/-- Bit `k` of a strip is the pixel in row `8*bank + k` (R112). -/
theorem packStrip_getLsbD (lit : Int → Int → Bool) (X bank : Nat) {k : Nat} (hk : k < 8) :
    (packStrip lit X bank).getLsbD k = lit ((X : Int) - 42) (((8 * bank + k : Nat) : Int) - 24) := by
  have loop : ∀ n, n ≤ 8 → ((List.range n).foldl
      (fun acc k => if lit ((X : Int) - 42) (((8 * bank + k : Nat) : Int) - 24) then acc ||| (0x01#8 <<< k) else acc)
      0x00#8).getLsbD k = (decide (k < n) && lit ((X : Int) - 42) (((8 * bank + k : Nat) : Int) - 24)) := by
    intro n
    induction n with
    | zero => simp
    | succ n ih =>
      intro hn
      rw [List.range_succ, List.foldl_append, List.foldl_cons, List.foldl_nil]
      have ih := ih (by omega)
      have hone : (0x01#8 <<< n).getLsbD k = decide (k = n) := by
        have h : ∀ n < 8, ∀ k < 8, (0x01#8 <<< n).getLsbD k = decide (k = n) := by decide
        exact h n (by omega) k hk
      split
      · rename_i hl
        rw [BitVec.getLsbD_or, ih, hone]
        rcases Nat.lt_trichotomy k n with h | h | h
        · simp [h, show k ≠ n by omega, show k < n + 1 by omega]
        · subst h; simpa using hl
        · simp [show ¬k < n by omega, show k ≠ n by omega, show ¬k < n + 1 by omega]
      · rename_i hl
        rw [ih]
        rcases Nat.lt_trichotomy k n with h | h | h
        · simp [h, show k < n + 1 by omega]
        · subst h; simpa using hl
        · simp [show ¬k < n by omega, show ¬k < n + 1 by omega]
  have h := loop 8 (Nat.le_refl 8)
  rw [decide_eq_true hk, Bool.true_and] at h
  exact h

end Sys2Proof.Machine
end

