-- ==== Sys2Proof/Laws/PerInstr.lean ====
section
/-! SUPPORT. The family EncodedWord: the word an operation is encoded as decodes to that operation, or, for the two format-L
operations, to the operation awaiting as many payload bytes as it carries. -/

namespace Sys2Proof.Laws

/-- What the word of an operation says before its payload is looked at. -/
def headOf : Instr → Head
  | .print text => .print (BitVec.ofNat 16 text.length)
  | .drawBuffer frame => .drawBuffer (BitVec.ofNat 16 frame.length)
  | i => .whole i

/-- The family's statement. -/
def EncodedWord.Statement (i : Instr) : Prop := decodeWord (encode i).word = .ok (headOf i)

/-! ### The fields of a word written as its fields side by side -/

theorem op_of_append (x : BitVec 24) (op : Byte) : opField (x ++ op) = op := BitVec.extractLsb'_append_eq_right

theorem imm_of_append (x : BitVec 24) (op : Byte) : immField (x ++ op) = x := BitVec.extractLsb'_append_eq_left

theorem reassoc (x : BitVec 16) (y z : Byte) : (x ++ y ++ z : BitVec 32) = (x ++ (y ++ z : BitVec 16) : BitVec 32) :=
  BitVec.append_assoc

theorem op_of_half (x : BitVec 16) (y op : Byte) : opField (x ++ y ++ op) = op := op_of_append (x ++ y) op

theorem half_of_half (x : BitVec 16) (y op : Byte) : halfField (x ++ y ++ op) = x := by
  rw [reassoc]; exact BitVec.extractLsb'_append_eq_left

theorem byte1_of_half (x : BitVec 16) (y op : Byte) : (x ++ y ++ op : BitVec 32).extractLsb' 8 8 = y := by
  ext i hi
  simp only [BitVec.getElem_extractLsb']
  rw [BitVec.getLsbD_append, if_neg (by omega), BitVec.getLsbD_append, if_pos (by omega)]
  rw [show 8 + i - 8 = i by omega]
  exact BitVec.getLsbD_eq_getElem hi

theorem high_of_half (x : BitVec 16) (y op : Byte) : (x ++ y ++ op : BitVec 32).extractLsb' 16 16 = x :=
  half_of_half x y op

theorem byte2_of_quarter (x y z op : Byte) : byte2Field (x ++ y ++ z ++ op) = y := by
  show BitVec.extractLsb' 16 8 ((x ++ y : BitVec 16) ++ z ++ op) = y
  ext i hi
  simp only [BitVec.getElem_extractLsb']
  rw [BitVec.getLsbD_append, if_neg (by omega), BitVec.getLsbD_append, if_neg (by omega), BitVec.getLsbD_append,
    if_pos (by omega)]
  rw [show 16 + i - 8 - 8 = i by omega]
  exact BitVec.getLsbD_eq_getElem hi

theorem byte3_of_quarter (x y z op : Byte) : (x ++ y ++ z ++ op : BitVec 32).extractLsb' 24 8 = x := by
  show BitVec.extractLsb' 24 8 ((x ++ y : BitVec 16) ++ z ++ op) = x
  ext i hi
  simp only [BitVec.getElem_extractLsb']
  rw [BitVec.getLsbD_append, if_neg (by omega), BitVec.getLsbD_append, if_neg (by omega), BitVec.getLsbD_append,
    if_neg (by omega)]
  rw [show 24 + i - 8 - 8 - 8 = i by omega]
  exact BitVec.getLsbD_eq_getElem hi

/-! ### One lemma for each constructor -/

theorem EncodedWord.init : EncodedWord.Statement .init := rfl
theorem EncodedWord.clear : EncodedWord.Statement .clear := rfl

theorem EncodedWord.print (text : List Byte) : EncodedWord.Statement (.print text) := by
  simp [EncodedWord.Statement, decodeWord, encode, headOf, op_of_half, byte1_of_half, half_of_half, ifZero]

theorem EncodedWord.printChar (ch : Byte) : EncodedWord.Statement (.printChar ch) := by
  simp [EncodedWord.Statement, decodeWord, encode, headOf, op_of_half, byte1_of_half, high_of_half, byte1Field, ifZero]

theorem EncodedWord.setCursor (col row : Byte) : EncodedWord.Statement (.setCursor col row) := by
  simp [EncodedWord.Statement, decodeWord, encode, headOf, op_of_half (0#8 ++ row), byte1_of_half (0#8 ++ row),
    byte2_of_quarter, byte3_of_quarter, byte1Field, ifZero]

theorem EncodedWord.drawBuffer (frame : List Byte) : EncodedWord.Statement (.drawBuffer frame) := by
  simp [EncodedWord.Statement, decodeWord, encode, headOf, op_of_half, byte1_of_half, half_of_half, ifZero]

theorem EncodedWord.newLine : EncodedWord.Statement .newLine := rfl
theorem EncodedWord.scroll : EncodedWord.Statement .scroll := rfl
theorem EncodedWord.powerDown : EncodedWord.Statement .powerDown := rfl
theorem EncodedWord.wakeUp : EncodedWord.Statement .wakeUp := rfl

theorem EncodedWord.blink (n : BitVec 16) : EncodedWord.Statement (.blink n) := by
  simp [EncodedWord.Statement, decodeWord, encode, headOf, op_of_half, byte1_of_half, half_of_half, ifZero]

theorem EncodedWord.sine (imm : BitVec 24) : EncodedWord.Statement (.sine imm) := by
  simp [EncodedWord.Statement, decodeWord, encode, headOf, op_of_append, imm_of_append]

theorem EncodedWord.dist (q : BitVec 24) : EncodedWord.Statement (.dist q) := by
  simp [EncodedWord.Statement, decodeWord, encode, headOf, op_of_append, imm_of_append]

theorem EncodedWord.genRadial (t : BitVec 16) : EncodedWord.Statement (.genRadial t) := by
  simp [EncodedWord.Statement, decodeWord, encode, headOf, op_of_half, byte1_of_half, half_of_half, ifZero]

theorem EncodedWord.genInterf (t : BitVec 16) : EncodedWord.Statement (.genInterf t) := by
  simp [EncodedWord.Statement, decodeWord, encode, headOf, op_of_half, byte1_of_half, half_of_half, ifZero]

theorem EncodedWord.genFractal (t : BitVec 16) : EncodedWord.Statement (.genFractal t) := by
  simp [EncodedWord.Statement, decodeWord, encode, headOf, op_of_half, byte1_of_half, half_of_half, ifZero]

end Sys2Proof.Laws
end

