-- ==== Sys2Proof/Laws/Step.lean ====
section
/-! SUPPORT. What a request and a step can do, said once: every invariant of the machine follows from these cases. -/

namespace Sys2Proof.Machine

/-- What a request can do: raise a fault, or run a body and answer. A body keeps configuration, status, port and responses,
extends the log, keeps the shadow canonical, and never leaves READY; one that stays in UNINIT does nothing at all. -/
inductive ExecCases (s t : State) : Prop where
  | faulted (e : ErrCode) (h : t = raise e s)
  | answered (v : Value) (u : State) (h : t = respond v u)
      (mode : u.mode = s.mode ∨ u.mode = .ready) (uninit : s.mode = .uninit → u.mode = .uninit → u = s)
      (cfg : u.cfg = s.cfg) (status : u.status = s.status) (port : u.port = s.port) (responses : u.responses = s.responses)
      (log : ∃ es, u.log = s.log ++ es) (wf : s.sh.wf = true → u.sh.wf = true)

theorem ExecCases.of_body {s u : State} (v : Value) (h : TextStep s u) (hr : s.mode = .ready) :
    ExecCases s (respond v u) :=
  .answered v u rfl (Or.inl h.mode) (fun hu => absurd (hr.symm.trans hu) (by decide)) h.cfg h.status h.port h.responses
    h.log h.wf

theorem ExecCases.of_gate {s : State} {body : State → State} (h : s.mode = .ready → ExecCases s (body s)) :
    ExecCases s (whenReady body s) := by
  cases hm : s.mode with
  | uninit => rw [whenReady_of_uninit hm]; exact .faulted _ rfl
  | ready => rw [whenReady_of_ready hm]; exact h hm

/-- A request that only answers. -/
theorem ExecCases.of_answer (s : State) (v : Value) : ExecCases s (respond v s) :=
  .answered v s rfl (Or.inl rfl) (fun _ _ => rfl) rfl rfl rfl rfl ⟨[], by simp⟩ id

theorem execInit_cases (s : State) : ExecCases s (respond .none (initBody s)) := by
  rw [initBody_eq]
  exact .answered _ _ rfl (Or.inr rfl) (fun _ h => absurd h (by simp)) rfl rfl rfl rfl ⟨_, rfl⟩ fun _ => rfl

theorem setCursorBody_textStep (col row : Nat) (s : State) : TextStep s (setCursorBody col row s) := by
  refine ⟨by simp, by simp, by simp, by simp, by simp, ?_, by simp⟩
  unfold setCursorBody
  split
  · exact ⟨_, rfl⟩
  · exact ⟨[], by simp⟩

theorem blinkBody_textStep (n : Nat) (s : State) : TextStep s (blinkBody n s) := by
  rw [blinkBody_eq]
  split
  · exact TextStep.refl s
  · exact ⟨rfl, rfl, rfl, rfl, rfl, ⟨_, rfl⟩, id⟩

/-- Every request ends in a next state, and in one of these cases. -/
theorem exec_cases {i : Instr} {s t : State} (h : exec i s = .next t) : ExecCases s t := by
  cases i with
  | init => obtain rfl := Host.Outcome.next.inj h; exact execInit_cases s
  | clear =>
    obtain rfl := Host.Outcome.next.inj h
    refine .of_gate fun hm => .of_body _ ?_ hm
    rw [clearBody_eq]; exact ⟨rfl, rfl, rfl, rfl, rfl, ⟨_, rfl⟩, fun _ => rfl⟩
  | print text => obtain rfl := Host.Outcome.next.inj h; exact .of_gate fun hm => .of_body _ (printText_textStep text s) hm
  | printChar ch => obtain rfl := Host.Outcome.next.inj h; exact .of_gate fun hm => .of_body _ (printCharBody_textStep _ s) hm
  | setCursor col row => obtain rfl := Host.Outcome.next.inj h; exact .of_gate fun hm => .of_body _ (setCursorBody_textStep _ _ s) hm
  | drawBuffer frame =>
    obtain rfl := Host.Outcome.next.inj h
    refine .of_gate fun hm => ?_
    split
    · refine .of_body _ ?_ hm
      rw [drawBufferBody_eq]
      exact ⟨rfl, rfl, rfl, rfl, rfl, ⟨_, rfl⟩, fun _ => Memory.wf_ofBytes (by omega)⟩
    · exact .faulted _ rfl
  | newLine => obtain rfl := Host.Outcome.next.inj h; exact .of_gate fun hm => .of_body _ (newLineBody_textStep s) hm
  | scroll =>
    obtain rfl := Host.Outcome.next.inj h
    refine .of_gate fun hm => .of_body _ ?_ hm
    rw [scrollBody_eq]; exact ⟨rfl, rfl, rfl, rfl, rfl, ⟨_, rfl⟩, Memory.wf_scrollUp⟩
  | powerDown =>
    obtain rfl := Host.Outcome.next.inj h
    refine .of_gate fun hm => .of_body _ ?_ hm
    rw [powerDownBody_eq]; exact ⟨rfl, rfl, rfl, rfl, rfl, ⟨_, rfl⟩, id⟩
  | wakeUp =>
    obtain rfl := Host.Outcome.next.inj h
    exact .of_gate fun hm => .of_body _ ⟨rfl, rfl, rfl, rfl, rfl, ⟨_, rfl⟩, id⟩ hm
  | blink n => obtain rfl := Host.Outcome.next.inj h; exact .of_gate fun hm => .of_body _ (blinkBody_textStep _ s) hm
  | sine imm => obtain rfl := Host.Outcome.next.inj h; exact .of_answer s _
  | dist q => obtain rfl := Host.Outcome.next.inj h; exact .of_answer s _
  | genRadial t => obtain rfl := Host.Outcome.next.inj h; exact .of_answer s _
  | genInterf t => obtain rfl := Host.Outcome.next.inj h; exact .of_answer s _
  | genFractal t =>
    obtain rfl := Host.Outcome.next.inj h
    split
    · exact .faulted _ rfl
    · exact .of_answer s _

/-- Every request ends in a next state: no meaning stops. -/
theorem exec_next (i : Instr) (s : State) : ∃ t, exec i s = .next t := by cases i <;> exact ⟨_, rfl⟩

/-- What a step that ends in a next state did: it waited, ran the request at the head of the port, or raised
`E_ILLEGAL_OP` for it. -/
theorem step_cases {s t : State} (h : step s = .next t) :
    s.cfg.wf = true ∧ ((t = s ∧ s.port = []) ∨ ∃ r rest, s.port = r :: rest ∧
      ((∃ i, decode r = .ok i ∧ exec i { s with port := rest } = .next t) ∨
        ((∃ e, decodeWord r.word = .error e) ∧ t = raise .illegalOp { s with port := rest }))) := by
  unfold step at h
  split at h
  case isFalse => exact absurd h (by simp)
  case isTrue hc =>
    refine ⟨hc, ?_⟩
    unfold accept at h
    cases hp : s.port with
    | nil => rw [hp] at h; exact Or.inl ⟨(Host.Outcome.next.inj h).symm, rfl⟩
    | cons r rest =>
      rw [hp] at h
      refine Or.inr ⟨r, rest, rfl, ?_⟩
      cases hd : decode r with
      | ok i => simp only [hd] at h; exact Or.inl ⟨i, rfl, h⟩
      | error e =>
        have hw : (∃ e, decodeWord r.word = .error e) ∨ ∃ a g, e = .payloadLength a g := by
          unfold decode at hd
          cases hdw : decodeWord r.word with
          | error e' => exact Or.inl ⟨e', rfl⟩
          | ok hd' =>
            simp only [hdw] at hd
            split at hd
            · cases hd' <;> exact absurd hd (by simp)
            · exact Or.inr ⟨_, _, (Except.error.inj hd).symm⟩
        simp only [hd] at h
        rcases hw with hw | ⟨a, g, rfl⟩
        · cases e <;> simp only [Host.Outcome.next.injEq, reduceCtorEq] at h <;> exact Or.inr ⟨hw, h.symm⟩
        · exact absurd h (by simp)

/-- Recording a fault keeps the register within its codes. -/
theorem recordErr_le {st : Byte} (e : ErrCode) (h : st.toNat ≤ 4) : (recordErr st e).toNat ≤ 4 := by
  unfold recordErr
  split
  · have hz : st.extractLsb' 3 5 = 0#5 := by
      refine BitVec.eq_of_toNat_eq ?_
      simp only [BitVec.extractLsb'_toNat, Nat.shiftRight_eq_div_pow, BitVec.toNat_ofNat]
      omega
    rw [hz]
    cases e <;> decide
  · exact h

end Sys2Proof.Machine
end

