-- ==== Sys2Proof/Tests/Slice0.lean ====
section
/-! SUPPORT. Tests of one step each, whose expected values are those of spec/95_test_vectors.md (the vector is named in each
comment), the smoke tests of the well-formedness checks, and, for every statement with hypotheses, a witness that meets
them. -/

namespace Sys2Proof.Tests

open Sys2Proof Sys2Proof.Machine

/-! ### Small states -/

/-- The state an outcome goes on with. -/
def goesTo : Host.Outcome State Fault Refusal → Option State
  | .next t => some t
  | _ => none

/-- The state after one operation. -/
def after (i : Instr) (s : State) : Option State := goesTo (exec i s)

/-- A READY block in the configuration TC with the given cursor and shadow, its log and responses empty. -/
def readyAt (col : Fin 84) (row : Fin 6) (sh : Memory) : State :=
  { State.reset with mode := .ready, cur := ⟨col, row⟩, sh := sh }

/-- A fresh block (95_test_vectors.md section 0), its log and responses empty. -/
def fresh : State := readyAt 0 0 []

/-- A block with one request on its port. -/
def waiting (s : State) (r : Request) : State := { s with port := [r] }

/-- A device in the modes the API assumes, blank, its pointer at the given position. -/
def panel (x : Fin 84) (y : Fin 6) : Device :=
  { dram := [], x, y, pd := false, v := false, h := false, d := true, e := false, vop := 0x31#7, tc := 0#2, bs := 4#3 }

/-- The frame `F[i] = i mod 256` of V5 and V25. -/
def rampFrame : List Byte := (List.range 504).map fun i => BitVec.ofNat 8 i

/-! ### Decoding: the words of V9, one for each operation of the opcode map -/

theorem test_decode_init : decode ⟨0x00000001#32, []⟩ = .ok .init := by decide
theorem test_decode_clear : decode ⟨0x00000002#32, []⟩ = .ok .clear := by decide
theorem test_decode_print : decode ⟨0x00020003#32, [0x48#8, 0x69#8]⟩ = .ok (.print [0x48#8, 0x69#8]) := by decide
theorem test_decode_printChar : decode ⟨0x00004104#32, []⟩ = .ok (.printChar 0x41#8) := by decide
theorem test_decode_setCursor : decode ⟨0x00020A05#32, []⟩ = .ok (.setCursor 10#8 2#8) := by decide
theorem test_decode_drawBuffer : decodeWord 0x01F80006#32 = .ok (.drawBuffer 504#16) := by decide
theorem test_decode_newLine : decode ⟨0x00000007#32, []⟩ = .ok .newLine := by decide
theorem test_decode_scroll : decode ⟨0x00000008#32, []⟩ = .ok .scroll := by decide
theorem test_decode_powerDown : decode ⟨0x00000009#32, []⟩ = .ok .powerDown := by decide
theorem test_decode_wakeUp : decode ⟨0x0000000A#32, []⟩ = .ok .wakeUp := by decide
theorem test_decode_blink : decode ⟨0x0003000B#32, []⟩ = .ok (.blink 3#16) := by decide
theorem test_decode_sine : decode ⟨0xFFFFA610#32, []⟩ = .ok (.sine 0xFFFFA6#24) ∧ angle 0xFFFFA6#24 = -90 := by decide
theorem test_decode_sine_least : angle 0x800000#24 = -8388608 ∧ angle 0x7FFFFF#24 = 8388607 := by decide
theorem test_decode_dist : decode ⟨0xFFFFFF11#32, []⟩ = .ok (.dist 16777215#24) := by decide
theorem test_decode_genRadial : decode ⟨0xFFFF0012#32, []⟩ = .ok (.genRadial 65535#16) := by decide
theorem test_decode_genInterf : decode ⟨0x00000013#32, []⟩ = .ok (.genInterf 0#16) := by decide
theorem test_decode_genFractal : decode ⟨0x00400014#32, []⟩ = .ok (.genFractal 64#16) := by decide

/-- V10: an unlisted `OP`, and a reserved bit set in each format that reserves one. -/
theorem test_decode_illegal :
    decodeWord 0x00000000#32 = .error (.unlistedOp 0x00#8) ∧ decodeWord 0x0000000C#32 = .error (.unlistedOp 0x0C#8) ∧
    decodeWord 0x00000015#32 = .error (.unlistedOp 0x15#8) ∧ decodeWord 0x000000FF#32 = .error (.unlistedOp 0xFF#8) ∧
    decodeWord 0x00000101#32 = .error (.reservedBits 0x01#8) ∧ decodeWord 0x80000002#32 = .error (.reservedBits 0x02#8) ∧
    decodeWord 0x01004104#32 = .error (.reservedBits 0x04#8) ∧ decodeWord 0x01020A05#32 = .error (.reservedBits 0x05#8) ∧
    decodeWord 0x00000103#32 = .error (.reservedBits 0x03#8) ∧ decodeWord 0x01F80106#32 = .error (.reservedBits 0x06#8) ∧
    decodeWord 0x0003010B#32 = .error (.reservedBits 0x0B#8) ∧ decodeWord 0x00400114#32 = .error (.reservedBits 0x14#8) := by
  decide

/-- R60: a legal word with another payload length is no request. -/
theorem test_decode_payload : decode ⟨0x00020003#32, [0x48#8]⟩ = .error (.payloadLength 2 1) := by decide

/-- R43: the serialized form is least significant byte first. -/
theorem test_bytes_order : (encode (.setCursor 10#8 2#8)).bytes = [0x05#8, 0x0A#8, 0x02#8, 0x00#8] := by decide

/-- The host's numbering: bits above the word are payload bits. -/
theorem test_tableWord : decodeTableWord 32 0x00010003 = some (.print [0x00#8]) ∧
    decodeTableWord 40 0x4100010003 = some (.print [0x41#8]) ∧ decodeTableWord 32 0x00000101 = none := by decide

/-! ### Well-formedness: what each check refuses -/

theorem test_print_too_long : (Instr.print (List.replicate 65536 0x41#8)).wf = false := by
  rw [Instr.wf, List.length_replicate]; decide
theorem test_drawBuffer_too_long : (Instr.drawBuffer (List.replicate 65536 0x00#8)).wf = false := by
  rw [Instr.wf, List.length_replicate]; decide
theorem test_cfg_contrast : Cfg.wf { Cfg.test with contrast := 0x31#8 } = false := by decide
theorem test_cfg_setY : Cfg.wf { Cfg.test with cmdSetY := 0x41#8 } = false := by decide
theorem test_cfg_setX : Cfg.wf { Cfg.test with cmdSetX := 0xC0#8 } = false := by decide
theorem test_cfg_good : Cfg.test.wf = true := by decide

/-! ### Assembly text (R64, R65) -/

theorem test_asm_setCursor :
    assembleLine [] "set_cursor 10, 2".toList = some (.one ⟨0x00020A05#32, []⟩) := by decide
theorem test_asm_println :
    assembleLine [] "println \"A\"".toList = some (.one ⟨0x00020003#32, [0x41#8, 0x0A#8]⟩) := by decide
theorem test_asm_sine : assembleLine [] "sine -90".toList = some (.one ⟨0xFFFFA610#32, []⟩) := by decide
theorem test_asm_out_of_range : assembleLine [] "sine 8388608".toList = none := by decide
theorem test_asm_show : assembleLine [] "show_interf 7".toList = some (.showFrame (.genInterf 7#16)) := by decide

/-! ### One operation each -/

/-- V11: the configuration commands, and the count of all events. -/
theorem test_init : (after .init State.reset).map (fun t => (t.mode, t.log.take 8, t.log.length)) =
    some (.ready, [.cmd 0x21#8, .cmd 0xB1#8, .cmd 0x04#8, .cmd 0x14#8, .cmd 0x20#8, .cmd 0x0C#8, .cmd 0x40#8,
      .cmd 0x80#8], 514) := by decide +kernel

/-- V12: INIT again leaves `ERR`. -/
theorem test_init_again : (after .init { readyAt 40 3 [(7, 0x55#8)] with status := 0x03#8 }).map
    (fun t => (t.cur, t.sh, t.status, t.responses)) = some (⟨0, 0⟩, [], 0x03#8, [⟨0x03#8, 0#3, .none⟩]) := by
  decide +kernel

/-- V3: CLEAR from (17,4). -/
theorem test_clear : (after .clear (readyAt 17 4 [(3, 0x03#8)])).map (fun t => (t.cur, t.sh, t.log.length)) =
    some (⟨0, 0⟩, [], 508) := by decide +kernel

/-- V19: non-printable bytes render `?`, the carriage return too. -/
theorem test_print : (after (.print [0x41#8, 0x0D#8]) fresh).map
    (fun t => (t.cur, t.sh.bytes 0 13, t.log.length)) =
    some (⟨12, 0⟩, [0x41#8, 0x41#8, 0x41#8, 0x41#8, 0x41#8, 0x00#8, 0x3F#8, 0x3F#8, 0x3F#8, 0x3F#8, 0x3F#8, 0x00#8,
      0x00#8], 36) := by decide +kernel

/-- V1, in part: a character, a newline, a character. -/
theorem test_print_newline : (after (.print [0x41#8, 0x0A#8, 0x42#8]) fresh).map
    (fun t => (t.cur, t.sh.bytes 84 6, t.log.length)) =
    some (⟨6, 1⟩, [0x42#8, 0x42#8, 0x42#8, 0x42#8, 0x42#8, 0x00#8], 38) := by decide +kernel

/-- V17: a character split across rows, event by event. -/
theorem test_printChar_split : (after (.printChar 0x42#8) (readyAt 80 0 [])).map (fun t => (t.cur, t.log)) =
    some (⟨2, 1⟩, [.dat 0x42#8, .cmd 0x40#8, .cmd 0xD1#8, .dat 0x42#8, .cmd 0x40#8, .cmd 0xD2#8, .dat 0x42#8,
      .cmd 0x40#8, .cmd 0xD3#8, .dat 0x42#8, .cmd 0x41#8, .cmd 0x80#8, .dat 0x42#8, .cmd 0x41#8, .cmd 0x81#8,
      .dat 0x00#8, .cmd 0x41#8, .cmd 0x82#8]) := by decide +kernel

/-- V18, with one byte of the old shadow: the scroll comes first, and the cursor goes to (0,5). -/
theorem test_printChar_scroll : (after (.printChar 0x43#8) (readyAt 78 5 [(84, 0x11#8)])).map
    (fun t => (t.cur, t.sh, t.log.length)) =
    some (⟨0, 5⟩, [(0, 0x11#8), (414, 0x43#8), (415, 0x43#8), (416, 0x43#8), (417, 0x43#8), (418, 0x43#8)], 526) := by
  decide +kernel

/-- V15: the last position. -/
theorem test_setCursor : (after (.setCursor 83#8 5#8) fresh).map (fun t => (t.cur, t.log)) =
    some (⟨83, 5⟩, [.cmd 0x45#8, .cmd 0xD3#8]) := by decide

/-- V15: a row out of range is a no-op without a fault. -/
theorem test_setCursor_out : (after (.setCursor 0#8 6#8) (readyAt 83 5 [])).map (fun t => (t.cur, t.log, t.responses)) =
    some (⟨83, 5⟩, [], [⟨0x00#8, 0#3, .none⟩]) := by decide

/-- V5, V25: the shadow is the frame, and the first events. -/
theorem test_drawBuffer : (after (.drawBuffer rampFrame) (readyAt 12 5 [(9, 0x33#8)])).map
    (fun t => (t.cur, [t.sh.read 0, t.sh.read 255, t.sh.read 256, t.sh.read 503], t.log.take 5, t.log.length)) =
    some (⟨0, 0⟩, [0x00#8, 0xFF#8, 0x00#8, 0xF7#8],
      [.cmd 0x22#8, .cmd 0x40#8, .cmd 0x80#8, .dat 0x00#8, .dat 0x01#8], 510) := by decide +kernel

/-- V26: LEN 503. -/
theorem test_drawBuffer_short : (after (.drawBuffer (List.replicate 503 0x00#8)) (readyAt 12 3 [])).map
    (fun t => (t.cur, t.log, t.responses)) = some (⟨12, 3⟩, [], [⟨0x03#8, 3#3, .none⟩]) := by decide +kernel

/-- V21, second row. -/
theorem test_newLine : (after .newLine (readyAt 0 2 [])).map (fun t => (t.cur, t.log)) =
    some (⟨0, 3⟩, [.cmd 0x43#8, .cmd 0x80#8]) := by decide

/-- V21, third row: the scroll first, which ends in column 36 of row 4. -/
theorem test_newLine_last : (after .newLine (readyAt 36 5 [(420, 0x77#8)])).map
    (fun t => (t.cur, t.sh, t.log.drop 506)) =
    some (⟨0, 5⟩, [(336, 0x77#8)], [.cmd 0x44#8, .cmd 0xA4#8, .cmd 0x45#8, .cmd 0x80#8]) := by decide +kernel

/-- V23, with one byte of each of two rows. -/
theorem test_scroll : (after .scroll (readyAt 10 5 [(83, 0x01#8), (84, 0x02#8), (503, 0x06#8)])).map
    (fun t => (t.cur, t.sh, t.log.length, t.log.drop 506)) =
    some (⟨10, 4⟩, [(0, 0x02#8), (419, 0x06#8)], 508, [.cmd 0x44#8, .cmd 0x8A#8]) := by decide +kernel

/-- V24: the row is clamped at 0. -/
theorem test_scroll_top : (after .scroll (readyAt 3 0 [(167, 0x77#8)])).map (fun t => (t.cur, t.sh)) =
    some (⟨3, 0⟩, [(83, 0x77#8)]) := by decide +kernel

/-- V27: the shadow is kept, and the last three events. -/
theorem test_powerDown : (after .powerDown (readyAt 12 3 [(5, 0x5A#8)])).map
    (fun t => (t.cur, t.sh, t.log.length, t.log.drop 506)) =
    some (⟨12, 3⟩, [(5, 0x5A#8)], 509, [.cmd 0x43#8, .cmd 0x8C#8, .cmd 0x24#8]) := by decide +kernel

/-- V27. -/
theorem test_wakeUp : (after .wakeUp (readyAt 12 3 [])).map (fun t => (t.cur, t.log)) =
    some (⟨12, 3⟩, [.cmd 0x20#8]) := by decide

/-- V28, with one shadow byte 0x0F. -/
theorem test_blink : (after (.blink 1#16) (readyAt 5 1 [(0, 0x0F#8)])).map
    (fun t => (t.cur, t.sh, t.log.length, t.log.take 4 ++ (t.log.drop 506).take 4 ++ t.log.drop 1013)) =
    some (⟨5, 1⟩, [(0, 0x0F#8)], 1015, [.cmd 0x40#8, .cmd 0x80#8, .dat 0xF0#8, .dat 0xFF#8, .delay 500#32,
      .cmd 0x40#8, .cmd 0x80#8, .dat 0x0F#8, .cmd 0x41#8, .cmd 0x85#8]) := by decide +kernel

/-- V29: with n = 0 nothing is emitted. -/
theorem test_blink_none : (after (.blink 0#16) (readyAt 5 1 [])).map (fun t => (t.cur, t.log)) = some (⟨5, 1⟩, []) := by
  decide

/-- V35, before INIT. -/
theorem test_sine : (after (.sine 0xFFFFA6#24) State.reset).map (·.responses) =
    some [⟨0x00#8, 0#3, .i32 (BitVec.ofInt 32 (-16777216))⟩] := by decide +kernel

/-- V34: the table, its mirror, the second half turn, and both ends of the operand. -/
theorem test_sine_values : [sine 89, sine 91, sine 181, sine 271, sine 360, sine (-1), sine 8388607, sine (-8388608)] =
    [16774661, 16774661, -292803, -16774661, 0, -292803, -15443509, 15555564] := by decide +kernel

/-- V36. -/
theorem test_dist : (after (.dist 100#24) State.reset).map (·.responses) = some [⟨0x00#8, 0#3, .u8 10#8⟩] := by
  decide +kernel

/-- V36: each side of a threshold, the last threshold, and the largest operand. -/
theorem test_dist_values : [0, 3, 4, 99, 1465, 16128, 16129, 16777215].map Machine.dist = [0, 1, 2, 9, 38, 126, 127, 127] := by
  decide +kernel

/-- V37: five pixels at two time steps. -/
theorem test_genRadial : [litRadial 0 0 0, litRadial 0 (-42) (-24), litRadial 0 41 23, litRadial 0 10 5,
      litRadial 0 (-20) 7, litRadial 1 0 0, litRadial 1 (-42) (-24), litRadial 1 41 23, litRadial 1 10 5,
      litRadial 1 (-20) 7] =
    [false, false, true, true, true, false, true, true, true, false] := by decide +kernel

/-- V30: columns 0 and 30 of the reference frame. -/
theorem test_genRadial_frame : ((List.range 6).map (packStrip (litRadial 0) 0), (List.range 6).map (packStrip (litRadial 0) 30)) =
    ([0x06#8, 0xC0#8, 0x0F#8, 0x1F#8, 0xF8#8, 0x3F#8], [0x1C#8, 0xC7#8, 0xE1#8, 0xF0#8, 0x38#8, 0x8E#8]) := by
  decide +kernel

/-- V38: the sources at five time steps. -/
theorem test_genInterf_sources : [0, 1, 45, 90, 65535].map sources =
    [⟨0, 16, 21, -16⟩, ⟨1, 15, 22, -16⟩, ⟨30, -12, 0, 0⟩, ⟨0, 0, -22, 16⟩, ⟨15, 11, 30, -14⟩] := by decide +kernel

/-- V31, V33: one column of each reference frame. -/
theorem test_genInterf_frame : ((List.range 6).map (packStrip (litInterf 0) 83), (List.range 6).map (packStrip (litInterf 45) 42)) =
    ([0x03#8, 0xFE#8, 0xC0#8, 0xF1#8, 0xC1#8, 0x07#8], [0xE0#8, 0xE1#8, 0xE1#8, 0xF0#8, 0x8F#8, 0x10#8]) := by
  decide +kernel

/-- V39: the mapping, and what is lit, at two time steps. -/
theorem test_genFractal : ([(0, -42, -24), (0, -20, 7), (1, 41, 23), (1, 10, 5)] : List (Nat × Int × Int)).map
      (fun p => (fractalCr p.1 p.2.1, fractalCi p.1 p.2.2, litFractal p.1 p.2.1 p.2.2)) =
    [(-8096, -3456, false), (-4928, 1008, true), (3733, 3243, false), (-638, 705, true)] := by decide +kernel

/-- V32, V41: column 36 of the reference frame, and the time step beyond the last. -/
theorem test_genFractal_frame : (List.range 6).map (packStrip (litFractal 0) 36) =
      [0x00#8, 0xFC#8, 0xFF#8, 0xFF#8, 0x7F#8, 0x00#8] ∧
    (after (.genFractal 65#16) State.reset).map (fun t => (t.status, t.responses)) =
      some (0x04#8, [⟨0x04#8, 4#3, .none⟩]) := by decide +kernel

/-! ### One step each -/

/-- V13, step 1: an illegal word records its code, and the request has left the port. -/
theorem test_step_illegal : (goesTo (step (waiting State.reset ⟨0x00000000#32, []⟩))).map
    (fun t => (t.status, t.port, t.log, t.responses)) = some (0x01#8, [], [], [⟨0x01#8, 1#3, .none⟩]) := by decide

/-- V13, steps 2 and 3: before INIT; `ERR` keeps the first code, and the response names this request's. -/
theorem test_step_not_ready : (goesTo (step (waiting { State.reset with status := 0x01#8 } ⟨0x00010003#32, [0x41#8]⟩))).map
    (fun t => (t.status, t.port, t.log, t.responses)) = some (0x01#8, [], [], [⟨0x01#8, 2#3, .none⟩]) := by decide

/-- V42: decode comes before the mode gate, whatever the payload. -/
theorem test_step_priority : (goesTo (step (waiting State.reset ⟨0x00000106#32, [0x00#8]⟩))).map (·.responses) =
    some [⟨0x01#8, 1#3, .none⟩] := by decide

/-- A legal word with another payload length, and a configuration that is not well-formed, are refused by name. -/
theorem test_step_refused : step (waiting fresh ⟨0x00020003#32, [0x48#8]⟩) = .refused .malformedRequest ∧
    step { fresh with cfg := { Cfg.test with contrast := 0x31#8 } } = .refused .illFormedConfiguration :=
  ⟨rfl, rfl⟩

/-- `withFetchWord` presents the word as the next request. -/
theorem test_fetch : (goesTo (step (State.reset.withFetchWord 32 0x00006411))).map (·.responses) =
    some [⟨0x00#8, 0#3, .u8 10#8⟩] := by decide +kernel

/-- A frame that is zero but for the bytes 6 and 503 of V25's. -/
def sparseFrame : List Byte := List.replicate 6 0x00#8 ++ [0x06#8] ++ List.replicate 496 0x00#8 ++ [0xF7#8]

/-- V25: the uploaded byte 6 is in column 1 of bank 0 (R39), and byte 503 in the last column of the last bank. -/
theorem test_device_upload : ((after (.drawBuffer sparseFrame) (readyAt 40 2 [])).bind fun t => (panel 40 2).run t.log).map
    (fun d => (d.dram, d.x, d.y, d.v)) = some ([(1, 0x06#8), (503, 0xF7#8)], 0, 0, false) := by decide +kernel

/-- R144, R150: a device in power-down stays there through CLEAR, and WAKE_UP and DRAW_BUFFER each clear it, by the same
command 0x20 (notes/assumptions/21.md). -/
theorem test_device_power : [.clear, .wakeUp, .drawBuffer sparseFrame].map (fun i =>
    ((after i fresh).bind fun t => Device.run { panel 0 0 with pd := true } t.log).map (·.pd)) =
    [some true, some false, some false] := by decide +kernel

/-- R64 leaves it open, and the model assembles it to none (notes/assumptions/20.md); one byte is a list. -/
theorem test_asm_bytes : assembleLine [] "draw_buffer bytes()".toList = none ∧
    assembleLine [] "draw_buffer bytes(7)".toList = some (.one ⟨0x00010006#32, [0x07#8]⟩) := by decide

/-! ### Witnesses: for each statement with hypotheses, concrete operands and states that meet them -/

/-- A READY state, for the statements whose one hypothesis is `MODE = READY`. -/
theorem witness_ready : fresh.mode = .ready := rfl

theorem witness_ClearEffect : (readyAt 17 4 [(3, 0x03#8)]).mode = .ready := rfl
theorem witness_PrintIsLinearEngine : (readyAt 83 5 [(503, 0x11#8)]).mode = .ready := rfl
theorem witness_PrintCharIsLinearEngine : (readyAt 78 5 [(84, 0x11#8)]).mode = .ready := rfl
theorem witness_ScrollEffect : (readyAt 10 5 [(84, 0x02#8)]).mode = .ready := rfl
theorem witness_PowerDownEffect : (readyAt 12 3 [(0, 0x5A#8)]).mode = .ready := rfl
theorem witness_WakeUpEffect : (readyAt 12 3 []).mode = .ready := rfl
theorem witness_BlinkEffect : (readyAt 5 1 [(0, 0x0F#8)]).mode = .ready := rfl
theorem witness_ConditionsThatAreNoFaults : (readyAt 83 5 []).mode = .ready ∧
    ¬((84#8).toNat < 84 ∧ (5#8).toNat < 6) ∧ ¬((83#8).toNat < 84 ∧ (6#8).toNat < 6) ∧
    ¬(0x20 ≤ (0x1F#8).toNat ∧ (0x1F#8).toNat ≤ 0x7E) ∧ ¬(0x20 ≤ (0x7F#8).toNat ∧ (0x7F#8).toNat ≤ 0x7E) ∧
    (0x7F#8 : Byte) ≠ 0x0A#8 := by decide

theorem witness_DecodeOfEncode : (Instr.print [0x41#8, 0x0A#8]).wf = true ∧
    (Instr.drawBuffer (List.replicate 65535 0xFF#8)).wf = true := by
  rw [Instr.wf, Instr.wf, List.length_replicate]; decide
theorem witness_EncodeOfDecode : decode ⟨0x00010003#32, [0x41#8]⟩ = .ok (.print [0x41#8]) := by decide
theorem witness_SerializedStreamRoundTrip : (Instr.print []).wf = true := by decide
theorem witness_OperandValues :
    decodeWord 0x0000FF04#32 = .ok (.whole (.printChar 0xFF#8)) ∧
    decodeWord 0x00055305#32 = .ok (.whole (.setCursor 83#8 5#8)) ∧ decodeWord 0xFFFF0003#32 = .ok (.print 65535#16) ∧
    decodeWord 0x00000006#32 = .ok (.drawBuffer 0#16) ∧ decodeWord 0xFFFF000B#32 = .ok (.whole (.blink 65535#16)) ∧
    decodeWord 0xFFFF0012#32 = .ok (.whole (.genRadial 65535#16)) ∧
    decodeWord 0xFFFF0013#32 = .ok (.whole (.genInterf 65535#16)) ∧
    decodeWord 0x00410014#32 = .ok (.whole (.genFractal 65#16)) ∧
    decodeWord 0xFFFFFF11#32 = .ok (.whole (.dist 16777215#24)) ∧
    decodeWord 0x7FFFFF10#32 = .ok (.whole (.sine 0x7FFFFF#24)) ∧
    decodeWord 0x80000010#32 = .ok (.whole (.sine 0x800000#24)) := by decide

/-- The configurations of the last clauses of ConstructionResetsState and ConfigurationFixedAndChecked. -/
theorem witness_ConstructionResetsState : Cfg.wf { Cfg.test with contrast := 0x31#8 } = false := by decide
theorem witness_ConfigurationFixedAndChecked : step State.reset = .next State.reset ∧
    (State.constructed { Cfg.test with contrast := 0x31#8 }).cfg.wf = false := ⟨rfl, by decide⟩

theorem witness_StepRunsDecodedRequest : (waiting fresh ⟨0x00004104#32, []⟩).cfg.wf = true ∧
    (waiting fresh ⟨0x00004104#32, []⟩).port = ⟨0x00004104#32, []⟩ :: [] ∧
    decode ⟨0x00004104#32, []⟩ = .ok (.printChar 0x41#8) := by decide
theorem witness_StepWithoutRequest : fresh.cfg.wf = true ∧ fresh.port = [] ∧
    (waiting fresh ⟨0x00020003#32, [0x48#8]⟩).port = ⟨0x00020003#32, [0x48#8]⟩ :: [] ∧
    decodeWord 0x00020003#32 = .ok (.print 2#16) ∧ [0x48#8].length ≠ payloadLen 0x00020003#32 := by decide
theorem witness_EveryRequestAnsweredOnce : (waiting State.reset ⟨0x00000101#32, []⟩).cfg.wf = true ∧
    (waiting State.reset ⟨0x00000101#32, []⟩).port = ⟨0x00000101#32, []⟩ :: [] ∧
    decodeWord 0x00000101#32 = .error (.reservedBits 0x01#8) := by decide

theorem witness_ConstructionMeetsInvariant : Cfg.test.wf = true := by decide
theorem witness_StepKeepsInvariant : State.reset.Inv ∧ step State.reset = .next State.reset :=
  ⟨⟨by decide, by decide, by decide, fun _ => by decide⟩, rfl⟩

/-- A second state that meets the invariant, with a request it faults on. -/
theorem witness_StepKeepsInvariant_fault : (waiting State.reset ⟨0x00000000#32, []⟩).Inv ∧
    (goesTo (step (waiting State.reset ⟨0x00000000#32, []⟩))).isSome = true :=
  ⟨⟨by decide, by decide, by decide, fun _ => by decide⟩, by decide⟩

theorem witness_OnlyInitWritesMode : (after .init State.reset).map (·.mode) = some .ready ∧
    State.reset.mode ≠ .ready ∧ (goesTo (step State.reset)).map (·.mode) = some .uninit := by decide +kernel
theorem witness_ErrStaysUntilReset :
    (goesTo (step (waiting { State.reset with status := 0x03#8 } ⟨0x00000000#32, []⟩))).isSome = true ∧
    (0x03#8).extractLsb' 0 3 ≠ 0#3 := by decide
theorem witness_LogAndResponsesGrow : (goesTo (step (waiting fresh ⟨0x0000000A#32, []⟩))).map
    (fun t => (t.log, t.responses.length)) = some ([.cmd 0x20#8], 1) := by decide
theorem witness_FaultsArePrecise : (waiting fresh ⟨0x00410014#32, []⟩).port = ⟨0x00410014#32, []⟩ :: [] ∧
    (goesTo (step (waiting fresh ⟨0x00410014#32, []⟩))).map (·.responses) =
      some (fresh.responses ++ [⟨0x04#8, 4#3, .none⟩]) ∧ (4#3 : BitVec 3) ≠ 0#3 := by decide
theorem witness_FirstFailingCheckRaises : decodeWord 0x00400114#32 = .error (.reservedBits 0x14#8) ∧
    (waiting State.reset ⟨0x00400114#32, []⟩).cfg.wf = true ∧ State.reset.mode = .uninit ∧
    Claims.gated (.drawBuffer []) = true ∧ fresh.mode = .ready ∧ (List.replicate 503 0x00#8).length ≠ 504 ∧ (List.replicate 505 0x00#8).length ≠ 504 ∧ (65#16).toNat > 64 := by
  refine ⟨by decide, by decide, rfl, rfl, rfl, ?_, ?_, by decide⟩ <;> rw [List.length_replicate] <;> decide
theorem witness_ModeGate : State.reset.mode = .uninit ∧ Claims.gated (.blink 1#16) = true ∧
    Claims.generates (.dist 100#24) = true ∧ (after (.dist 100#24) State.reset).isSome = true := by
  decide +kernel
theorem witness_GeneratorsIgnoreState : Claims.generates (.dist 100#24) = true ∧ (after (.dist 100#24) State.reset).isSome = true ∧
    (after (.dist 100#24) (readyAt 5 1 [(0, 0x0F#8)])).isSome = true ∧
    Claims.generates (.genFractal 65#16) = true ∧ (after (.genFractal 65#16) State.reset).isSome = true := by
  decide +kernel

/-- Both sides of each bound of SET_CURSOR. -/
theorem witness_SetCursorEffect : fresh.mode = .ready ∧ ((83#8).toNat < 84 ∧ (5#8).toNat < 6) ∧ 84 ≤ (84#8).toNat ∧
    6 ≤ (6#8).toNat := by decide
theorem witness_PrintCharWithinRow : (readyAt 77 5 []).cur.col.val + 6 < 84 ∧ (readyAt 77 5 []).mode = .ready := by decide

/-- The positions at which the clauses meet: 419 and 420 for a newline, 502 and 503 for a byte. -/
theorem witness_CursorEngineLinear : 84 * (readyAt 82 5 []).cur.row.val + (readyAt 82 5 []).cur.col.val + 1 < 504 ∧
    84 * (readyAt 83 5 []).cur.row.val + (readyAt 83 5 []).cur.col.val + 1 = 504 ∧
    420 ≤ 84 * (readyAt 0 5 []).cur.row.val + (readyAt 0 5 []).cur.col.val ∧
    84 * (readyAt 83 4 []).cur.row.val + (readyAt 83 4 []).cur.col.val < 420 := by decide
theorem witness_HelloWorldScenario : fresh.mode = .ready ∧ fresh.cur = ⟨0, 0⟩ ∧
    ∀ i, i < 504 → fresh.sh.read i = 0x00#8 := ⟨rfl, rfl, fun _ _ => rfl⟩
theorem witness_NewLineEffect : (readyAt 36 4 []).mode = .ready ∧ (readyAt 36 4 []).cur.row.val < 5 ∧
    (readyAt 36 5 []).cur.row.val = 5 := by decide

theorem witness_DrawBufferEffect : fresh.mode = .ready ∧ rampFrame.length = 504 := ⟨rfl, by decide +kernel⟩
theorem witness_WrongFrameLengthRejected : (List.replicate 503 0x00#8).length ≠ 504 ∧
    (List.replicate 505 0x00#8).length ≠ 504 ∧ fresh.cfg.wf = true ∧ (List.replicate 505 0x00#8).length < 65536 ∧
    (waiting fresh (encode (.drawBuffer (List.replicate 505 0x00#8)))).port =
      encode (.drawBuffer (List.replicate 505 0x00#8)) :: [] := by
  rw [List.length_replicate, List.length_replicate]
  exact ⟨by decide, by decide, by decide, by decide, rfl⟩
theorem witness_ShowUploadsGeneratedFrame : fresh.cfg.wf = true ∧ fresh.mode = .ready ∧
    (Instr.genFractal 64#16 matches .genRadial _ | .genInterf _ | .genFractal _) ∧ (64#16).toNat ≤ 64 := by decide
theorem witness_BlinkInvertsEveryPixel : (after (.blink 0#16) (readyAt 5 1 [])).isSome = true ∧
    (readyAt 5 1 [(503, 0x0F#8)]).mode = .ready ∧ 1 < (2#16).toNat ∧ 503 < 504 := by decide
theorem witness_EventCounts : fresh.mode = .ready ∧ (after .wakeUp fresh).isSome = true ∧
    (readyAt 77 0 []).cur.col.val + 6 < 84 := by decide

/-- Each case of the reduction at its ends. -/
theorem witness_SineReduction : (0 : Int) ≤ 90 ∧ (90 : Int) < 91 ∧ (180 : Int) ≤ 180 ∧ (180 : Int) < 181 ∧ (359 : Int) < 360 ∧
    (-1 : Int) < 0 ∧ (360 : Int) ≤ 360 := by decide
theorem witness_DistMonotone : (16128 : Nat) ≤ 16129 := by decide

/-- The last time step that runs and the first that does not. -/
theorem witness_GenFractalEffect : (64#16).toNat ≤ 64 ∧ 64 < (65#16).toNat := by decide

/-- The default command bytes with TC's parameters. -/
theorem witness_DefaultCommands : Claims.DefaultCommands Cfg.test := ⟨by decide, rfl⟩

/-- A READY block with its cursor anywhere, and a blank device whose pointer is there. -/
theorem tracks_panel (x : Fin 84) (y : Fin 6) (sh : Memory) : (panel x y).Tracks (readyAt x y sh) := ⟨rfl, rfl, rfl, rfl⟩

theorem witness_InitConfiguresDevice : Claims.DefaultCommands State.reset.cfg := witness_DefaultCommands
theorem witness_ClearedShadowAndScreen : Claims.DefaultCommands (readyAt 17 4 [(3, 0x03#8)]).cfg ∧
    (readyAt 17 4 [(3, 0x03#8)]).mode = .ready ∧ (panel 17 4).Tracks (readyAt 17 4 [(3, 0x03#8)]) :=
  ⟨witness_DefaultCommands, rfl, tracks_panel 17 4 _⟩
theorem witness_ScrollShadowAndScreen : (readyAt 10 0 []).mode = .ready ∧ Claims.DefaultCommands (readyAt 10 0 []).cfg ∧
    (panel 83 5).v = false ∧ (panel 83 5).h = false := ⟨rfl, witness_DefaultCommands, rfl, rfl⟩
theorem witness_EveryRequestResyncsDevice : Claims.DefaultCommands (readyAt 12 3 []).cfg ∧ (readyAt 12 3 []).mode = .ready ∧
    (panel 12 3).Tracks (readyAt 12 3 []) ∧ (after .wakeUp (readyAt 12 3 [])).isSome = true :=
  ⟨witness_DefaultCommands, rfl, tracks_panel 12 3 _, by decide⟩

/-- Its power-save clauses: a request that keeps a powered-down device so, and an upload to a powered and to a powered-down
device. -/
theorem witness_EveryRequestResyncsDevice_power : ({ panel 12 3 with pd := true }).Tracks (readyAt 12 3 []) ∧
    (after .clear (readyAt 12 3 [])).isSome = true ∧ powerSaveAfter .clear true = true ∧ (panel 12 3).pd = false ∧
    (after (.drawBuffer rampFrame) (readyAt 12 3 [])).isSome = true ∧ rampFrame.length = 504 :=
  ⟨⟨rfl, rfl, rfl, rfl⟩, by decide +kernel, rfl, rfl, by decide +kernel, by decide +kernel⟩

/-- Both premises: a coherent device, and one whose display RAM the request rebuilds. -/
theorem witness_TextKeepsShadowCoherent : Claims.DefaultCommands (readyAt 83 5 []).cfg ∧ (readyAt 83 5 []).mode = .ready ∧
    Claims.keepsCoherence .newLine = true ∧ (panel 83 5).Coherent (readyAt 83 5 []) ∧
    (after .newLine (readyAt 83 5 [])).isSome = true ∧ (panel 83 5).Tracks (readyAt 83 5 [(0, 0x01#8)]) ∧
    Claims.keepsCoherence .scroll = true ∧ (after .scroll (readyAt 83 5 [(0, 0x01#8)])).isSome = true :=
  ⟨witness_DefaultCommands, rfl, rfl, ⟨tracks_panel 83 5 _, fun _ _ => rfl⟩, by decide +kernel, tracks_panel 83 5 _, rfl,
    by decide +kernel⟩
theorem witness_UploadedFrameOnScreen : Claims.DefaultCommands (readyAt 40 2 []).cfg ∧ (readyAt 40 2 []).mode = .ready ∧
    (panel 40 2).Tracks (readyAt 40 2 []) ∧ rampFrame.length = 504 :=
  ⟨witness_DefaultCommands, rfl, tracks_panel 40 2 _, by decide +kernel⟩
theorem witness_PowerDownBlanksScreen : Claims.DefaultCommands (readyAt 12 3 [(0, 0x5A#8)]).cfg ∧
    (readyAt 12 3 [(0, 0x5A#8)]).mode = .ready ∧ (panel 12 3).Tracks (readyAt 12 3 [(0, 0x5A#8)]) :=
  ⟨witness_DefaultCommands, rfl, tracks_panel 12 3 _⟩
theorem witness_BlinkRestoresScreen : Claims.DefaultCommands (readyAt 5 1 [(0, 0x0F#8)]).cfg ∧
    (readyAt 5 1 [(0, 0x0F#8)]).mode = .ready ∧ (panel 5 1).Tracks (readyAt 5 1 [(0, 0x0F#8)]) ∧ 1#16 ≠ 0#16 :=
  ⟨witness_DefaultCommands, rfl, tracks_panel 5 1 _, by decide⟩

end Sys2Proof.Tests
end

section
/-! SUPPORT. The statements of 00_scope.md: which configurations are well-formed, what a step runs, and the invariant every
step keeps. -/

namespace Sys2Proof.Machine

/-! ### The configuration check (R8) -/

/-- The low `k` bits of a byte are zero exactly if the byte is a multiple of `2^k`. -/
theorem extractLsb'_zero_eq_zero_iff (b : Byte) (k : Nat) : b.extractLsb' 0 k = 0#k ↔ b.toNat % 2 ^ k = 0 := by
  simp [← BitVec.toNat_inj, BitVec.extractLsb'_toNat]

/-- R8 in numbers: the contrast's top bit is set, and each positioning command leaves its operand's bits free. -/
theorem cfg_wf_iff (c : Cfg) :
    c.wf = true ↔ c.contrast.getLsbD 7 = true ∧ c.cmdSetY.toNat % 8 = 0 ∧ c.cmdSetX.toNat % 128 = 0 := by
  simp only [Cfg.wf, Bool.and_eq_true, beq_iff_eq, extractLsb'_zero_eq_zero_iff, and_assoc, Nat.reducePow]

theorem step_of_cfg_not_wf {s : State} (h : s.cfg.wf = false) : step s = .refused .illFormedConfiguration := by
  simp [step, h]

/-! ### The request a step runs (R9, R59, R60) -/

theorem accept_of_decode {s : State} {r : Request} {rest : List Request} {i : Instr} (hp : s.port = r :: rest)
    (hd : decode r = .ok i) : accept s = .run i { s with port := rest } := by
  simp only [accept, hp, hd]

theorem step_of_accept_run {s s' : State} {i : Instr} (hc : s.cfg.wf = true) (ha : accept s = .run i s') :
    step s = exec i s' := by
  simp only [step, hc, ha, if_true]

/-- A step waits, or takes the request at the head of the port and does what a request can do: an illegal word is one more
way to raise a fault. -/
theorem step_execCases {s t : State} (h : step s = .next t) :
    t = s ∨ ∃ rest, ExecCases { s with port := rest } t := by
  obtain ⟨-, ⟨rfl, -⟩ | ⟨r, rest, -, ⟨i, -, hexec⟩ | ⟨-, hraise⟩⟩⟩ := step_cases h
  · exact .inl rfl
  · exact .inr ⟨rest, exec_cases hexec⟩
  · exact .inr ⟨rest, .faulted _ hraise⟩

/-! ### What every request, and so every step, keeps -/

theorem ExecCases.cfg_eq {s t : State} (h : ExecCases s t) : t.cfg = s.cfg := by
  cases h with
  | faulted e h => rw [h, raise_cfg]
  | answered v u h _ _ hcfg => rw [h, respond_cfg, hcfg]

theorem step_cfg {s t : State} (h : step s = .next t) : t.cfg = s.cfg := by
  obtain rfl | ⟨_, hcases⟩ := step_execCases h
  · rfl
  · exact hcases.cfg_eq

/-- The invariant does not speak of the port. -/
theorem State.Inv.with_port {s : State} (h : s.Inv) (rest : List Request) : State.Inv { s with port := rest } :=
  ⟨h.cfg, h.sh, h.status, h.before⟩

/-- A fault touches the status register alone, and leaves it within its codes (R125, R126). -/
theorem State.Inv.raise {s : State} (h : s.Inv) (e : ErrCode) : (raise e s).Inv :=
  ⟨h.cfg, h.sh, recordErr_le e h.status, h.before⟩

/-- A response touches nothing the invariant speaks of. -/
theorem State.Inv.respond {s : State} (h : s.Inv) (v : Value) : (respond v s).Inv :=
  ⟨h.cfg, h.sh, h.status, h.before⟩

/-- A request keeps the invariant. The clause about UNINIT survives a body because one that ends in UNINIT started there
(no body leaves READY for it) and so did nothing. -/
theorem ExecCases.inv {s t : State} (h : ExecCases s t) (hs : s.Inv) : t.Inv := by
  cases h with
  | faulted e h => exact h ▸ hs.raise e
  | answered v u h hmode huninit hcfg hstatus _ _ _ hwf =>
    have hu : u.Inv := by
      refine ⟨hcfg ▸ hs.cfg, hwf hs.sh, hstatus ▸ hs.status, fun hum => ?_⟩
      have hsm : s.mode = .uninit := by
        rcases hmode with hm | hm
        · exact hm ▸ hum
        · exact absurd (hm.symm.trans hum) (by decide)
      rw [huninit hsm hum]
      exact hs.before hsm
    exact h ▸ hu.respond v

theorem step_inv {s t : State} (hs : s.Inv) (h : step s = .next t) : t.Inv := by
  obtain rfl | ⟨rest, hcases⟩ := step_execCases h
  · exact hs
  · exact hcases.inv (hs.with_port rest)

/-! ### The obligations -/

/-- Settles O15: a step waits or runs one request, and each way a request can end keeps the invariant. -/
theorem stepKeepsInvariant : Obligations.StepKeepsInvariant := fun _ _ hs h => step_inv hs h

/-- Settles O10: the check in numbers, no step writes CFG, and a configuration that fails the check is refused. -/
theorem configurationFixedAndChecked : Obligations.ConfigurationFixedAndChecked :=
  ⟨cfg_wf_iff, fun _ _ h => step_cfg h, fun _ h => step_of_cfg_not_wf h⟩

/-- Settles O11: the port yields the decoded operation and the state without its request, and the step runs it. -/
theorem stepRunsDecodedRequest : Obligations.StepRunsDecodedRequest := fun _ _ _ _ hc hp hd =>
  step_of_accept_run hc (accept_of_decode hp hd)

end Sys2Proof.Machine
end

section
/-! SUPPORT. The statements of 10_state.md: who writes MODE, STATUS, LOG and the responses, and what a generator request
depends on. -/

namespace Sys2Proof.Machine

open Sys2Proof.Claims

/-! ### The two kinds of requests beside INIT (R66) -/

/-- A gated request is the mode gate around a body. -/
theorem exec_of_gated {i : Instr} (hi : gated i = true) :
    ∃ body : State → State, ∀ s, exec i s = .next (whenReady body s) :=
  match i, hi with
  | .clear, _ | .print _, _ | .printChar _, _ | .setCursor _ _, _ | .drawBuffer _, _ | .newLine, _ | .scroll, _
  | .powerDown, _ | .wakeUp, _ | .blink _, _ => ⟨_, fun _ => rfl⟩

/-- R26: whether a generator request answers or faults, and with what, is settled by its operand alone. -/
theorem exec_of_generates {i : Instr} (hi : generates i = true) :
    (∃ v, ∀ s, exec i s = .next (respond v s)) ∨ ∃ e, ∀ s, exec i s = .next (raise e s) :=
  match i, hi with
  | .sine _, _ | .dist _, _ | .genRadial _, _ | .genInterf _, _ => .inl ⟨_, fun _ => rfl⟩
  | .genFractal t, _ => by
    by_cases ht : timeStep t > fractalMaxT
    · exact .inr ⟨.timeRange, fun s => congrArg _ (if_pos ht)⟩
    · exact .inl ⟨_, fun s => congrArg _ (if_neg ht)⟩

theorem eq_init_or_gated_or_generates (i : Instr) : i = .init ∨ gated i = true ∨ generates i = true := by
  cases i <;> simp [gated, generates]

/-! ### MODE (R14) -/

theorem ExecCases.mode_eq_or_ready {s t : State} (h : ExecCases s t) : t.mode = s.mode ∨ t.mode = .ready := by
  cases h with
  | faulted e h => exact .inl (h ▸ raise_mode s e)
  | answered v u h hmode => rwa [h, respond_mode]

/-- R66: before INIT a request other than INIT only answers or faults. -/
theorem exec_of_uninit {i : Instr} {s : State} (hi : i ≠ .init) (hm : s.mode = .uninit) :
    (∃ v, exec i s = .next (respond v s)) ∨ ∃ e, exec i s = .next (raise e s) := by
  obtain hinit | hgated | hgen := eq_init_or_gated_or_generates i
  · exact absurd hinit hi
  · obtain ⟨body, hbody⟩ := exec_of_gated hgated
    exact .inr ⟨.notReady, (hbody s).trans (congrArg _ (whenReady_of_uninit hm))⟩
  · exact (exec_of_generates hgen).imp (fun ⟨v, hv⟩ => ⟨v, hv s⟩) fun ⟨e, he⟩ => ⟨e, he s⟩

theorem exec_mode {i : Instr} {s t : State} (hi : i ≠ .init) (h : exec i s = .next t) : t.mode = s.mode := by
  cases hm : s.mode with
  | ready => exact (exec_cases h).mode_eq_or_ready.elim (·.trans hm) id
  | uninit =>
    obtain ⟨v, hv⟩ | ⟨e, he⟩ := exec_of_uninit hi hm
    · obtain rfl := Host.Outcome.next.inj (hv.symm.trans h)
      rw [respond_mode, hm]
    · obtain rfl := Host.Outcome.next.inj (he.symm.trans h)
      rw [raise_mode, hm]

theorem exec_init_mode {s t : State} (h : exec .init s = .next t) : t.mode = .ready := by
  obtain rfl := Host.Outcome.next.inj h
  rw [respond_mode, initBody_eq]

theorem step_mode_eq_or_ready {s t : State} (h : step s = .next t) : t.mode = s.mode ∨ t.mode = .ready := by
  obtain rfl | ⟨_, hcases⟩ := step_execCases h
  · exact .inl rfl
  · exact hcases.mode_eq_or_ready

/-- Settles O16: every request but INIT keeps MODE, and whatever a step does ends in the mode it started in or in READY. -/
theorem onlyInitWritesMode : Obligations.OnlyInitWritesMode := by
  refine ⟨fun i s t h hne => ?_, fun _ _ h => exec_init_mode h, fun s t h hu => ?_, fun _ => rfl⟩
  · by_contra hi
    exact hne (exec_mode hi h)
  · obtain hm | hm := step_mode_eq_or_ready h
    · exact hm ▸ hu
    · exact absurd (hm.symm.trans hu) (by decide)

/-! ### STATUS (R22, R126, R130) -/

theorem ExecCases.status_of_err {s t : State} (h : ExecCases s t) (herr : errField s.status ≠ 0#3) :
    t.status = s.status := by
  cases h with
  | faulted e h => rw [h, raise_status, recordErr_of_ne e herr]
  | answered v u h _ _ _ hstatus => rw [h, respond_status, hstatus]

/-- Settles O17: a fault finds ERR taken, and no other request writes STATUS. -/
theorem errStaysUntilReset : Obligations.ErrStaysUntilReset := by
  intro s t h herr
  obtain rfl | ⟨_, hcases⟩ := step_execCases h
  · rfl
  · exact hcases.status_of_err herr

/-- The model's record of a fault is the statements' own. -/
theorem recordErr_eq_recorded (st : Byte) (e : ErrCode) : recordErr st e = recorded st e.code := by
  simp only [recordErr, recorded, errField, beq_iff_eq]

theorem code_ne_zero (e : ErrCode) : e.code ≠ 0#3 := by cases e <;> decide

/-! ### LOG and the responses (R31, R32, R142) -/

theorem ExecCases.log_grows {s t : State} (h : ExecCases s t) : ∃ es, t.log = s.log ++ es := by
  cases h with
  | faulted e h => exact ⟨[], by rw [h, raise_log, List.append_nil]⟩
  | answered v u h _ _ _ _ _ _ hlog => rwa [h, respond_log]

theorem ExecCases.one_response {s t : State} (h : ExecCases s t) : ∃ r, t.responses = s.responses ++ [r] := by
  cases h with
  | faulted e h => exact ⟨_, h ▸ raise_responses s e⟩
  | answered v u h _ _ _ _ _ hresponses => exact ⟨_, by rw [h, respond_responses, hresponses]⟩

/-- Settles O18: a step that waits appends nothing, and a request extends LOG and answers once. -/
theorem logAndResponsesGrow : Obligations.LogAndResponsesGrow := by
  intro s t h
  obtain rfl | ⟨_, hcases⟩ := step_execCases h
  · exact ⟨⟨[], (List.append_nil _).symm⟩, .inl rfl⟩
  · exact ⟨hcases.log_grows, .inr hcases.one_response⟩

/-! ### The generators (R26) -/

/-- Settles O54: either both runs answer one value, or both raise one code, and neither outcome writes anything else. -/
theorem generatorsIgnoreState : Obligations.GeneratorsIgnoreState := by
  intro i s₁ s₂ t₁ t₂ hi h₁ h₂
  obtain ⟨v, hv⟩ | ⟨e, he⟩ := exec_of_generates hi
  · obtain rfl := Host.Outcome.next.inj ((hv s₁).symm.trans h₁)
    obtain rfl := Host.Outcome.next.inj ((hv s₂).symm.trans h₂)
    exact ⟨⟨rfl, rfl, rfl, rfl, rfl, rfl⟩, 0#3, v, rfl, rfl, rfl⟩
  · obtain rfl := Host.Outcome.next.inj ((he s₁).symm.trans h₁)
    obtain rfl := Host.Outcome.next.inj ((he s₂).symm.trans h₂)
    refine ⟨⟨rfl, rfl, rfl, rfl, rfl, rfl⟩, e.code, .none, rfl, rfl, ?_⟩
    rw [raise_status, if_neg (code_ne_zero e), recordErr_eq_recorded]

end Sys2Proof.Machine
end

section
/-! SUPPORT. The statement of 10_state.md about the reference device: after every request it is in the modes the API assumes,
its pointer at the cursor. -/

namespace Sys2Proof.Machine

open Sys2Proof.Claims

/-! ### The device's modes under a sequence of events (R143 to R148) -/

/-- What a function set writes (R144): power-down, vertical addressing, the extended set. -/
structure Modes where
  pd : Bool
  v  : Bool
  h  : Bool

def Device.modes (dev : Device) : Modes := ⟨dev.pd, dev.v, dev.h⟩

/-- The modes R29 assumes, with a given power-down bit: horizontal addressing and the basic set. -/
def Modes.assumed (pd : Bool) : Modes := ⟨pd, false, false⟩

/-- Every event of `es` has a specified effect on a device in the modes `m`, and they take it to the modes `m'`, whatever
its display RAM and pointer. -/
def ModesRun (es : List Event) (m m' : Modes) : Prop :=
  ∀ dev : Device, dev.modes = m → ∃ dev', dev.run es = some dev' ∧ dev'.modes = m'

theorem ModesRun.nil (m : Modes) : ModesRun [] m m := fun dev h => ⟨dev, rfl, h⟩

theorem ModesRun.append {es fs : List Event} {m m' m'' : Modes} (h : ModesRun es m m') (h' : ModesRun fs m' m'') :
    ModesRun (es ++ fs) m m'' := by
  intro dev hdev
  obtain ⟨dev', hrun, hdev'⟩ := h dev hdev
  obtain ⟨dev'', hrun', hdev''⟩ := h' dev' hdev'
  exact ⟨dev'', (Device.run_append_of hrun fs).trans hrun', hdev''⟩

theorem ModesRun.replicate {es : List Event} {m : Modes} (h : ModesRun es m m) (n : Nat) :
    ModesRun (List.replicate n es).flatten m m := by
  induction n with
  | zero => exact .nil m
  | succ n ih => rw [List.replicate_succ, List.flatten_cons]; exact h.append ih

theorem ModesRun.delay (ms : BitVec 32) (m : Modes) : ModesRun [.delay ms] m m := fun dev h => ⟨dev, rfl, h⟩

/-- A data byte moves the pointer and writes display RAM (R147, R148). -/
theorem Device.data_modes (b : Byte) (dev : Device) : (dev.data b).modes = dev.modes := by
  simp only [Device.data, Device.stepDown, Device.stepRight]
  split_ifs <;> rfl

theorem ModesRun.data (bs : List Byte) (m : Modes) : ModesRun (dataEvents bs) m m := by
  induction bs with
  | nil => exact .nil m
  | cons b bs ih => exact fun dev h => ih (dev.data b) ((Device.data_modes b dev).trans h)

theorem ModesRun.functionSet {b : Byte} (hb : b.extractLsb' 3 5 = 0b00100#5) (m : Modes) :
    ModesRun [.cmd b] m ⟨b.getLsbD 2, b.getLsbD 1, b.getLsbD 0⟩ :=
  fun dev _ => ⟨_, Device.run_functionSet b dev hb, rfl⟩

section
variable {c : Cfg} (hc : Cfg.isDefault c)
include hc

theorem Cfg.isDefault.cmdFsBasic : c.cmdFsBasic = 0x20#8 := by rw [hc]; rfl
theorem Cfg.isDefault.cmdFsVert : c.cmdFsVert = 0x22#8 := by rw [hc]; rfl
theorem Cfg.isDefault.cmdFsPd : c.cmdFsPd = 0x24#8 := by rw [hc]; rfl

theorem ModesRun.positioning {m : Modes} (hm : m.h = false) {col row : Nat} (hcol : col < 84) (hrow : row < 6) :
    ModesRun (positioning c col row) m m := by
  intro dev h
  exact ⟨_, Device.run_position hc dev (by rw [← hm, ← h]; rfl) ⟨col, hcol⟩ ⟨row, hrow⟩, h⟩

theorem ModesRun.cmdFsBasic (m : Modes) : ModesRun [.cmd c.cmdFsBasic] m (.assumed false) := by
  rw [hc.cmdFsBasic]; exact .functionSet (by decide) m

/-- Vertical addressing is a mode of the basic set too: positioning and data go on. -/
theorem ModesRun.cmdFsVert (m : Modes) : ModesRun [.cmd c.cmdFsVert] m ⟨false, true, false⟩ := by
  rw [hc.cmdFsVert]; exact .functionSet (by decide) m

theorem ModesRun.initCommands (h7 : c.contrast.getLsbD 7 = true) (m : Modes) :
    ModesRun (initCommands c) m (.assumed false) :=
  fun dev _ => ⟨_, Device.run_initCommands hc h7 dev, rfl⟩

/-- The pointer sent to the origin and a stream of data, as CLEAR_BODY, SCROLL_BODY, POWER_DOWN and BLINK emit it. -/
theorem ModesRun.stream {m : Modes} (hm : m.h = false) (bs : List Byte) :
    ModesRun (Machine.positioning c 0 0 ++ dataEvents bs) m m :=
  .append (.positioning hc hm (by decide) (by decide)) (.data bs m)

theorem ModesRun.scrollEvents (pd : Bool) (sh : Memory) (col : Fin 84) (row : Fin 6) :
    ModesRun (scrollEvents c sh col row) (.assumed pd) (.assumed pd) := by
  unfold Machine.scrollEvents
  rw [← List.append_assoc]
  exact .append (.stream hc rfl _) (.positioning hc rfl col.isLt (by omega))

theorem ModesRun.blinkEvents (pd : Bool) (bs : List Byte) : ModesRun (blinkEvents c bs) (.assumed pd) (.assumed pd) := by
  unfold Machine.blinkEvents
  rw [← List.append_assoc]
  exact .append (.stream hc rfl _) (.append (.delay _ _) (.stream hc rfl _))

end

/-! ### The device beside the block (R18, R29, R150) -/

/-- From a device that tracks `s`, its power-down bit `pd`, the events of `LOG` between `s` and `t` run to a device that
tracks `t`, its power-down bit `pd'`. -/
def Resyncs (pd pd' : Bool) (s t : State) : Prop :=
  ∃ es, t.log = s.log ++ es ∧ ∀ dev : Device, dev.Tracks s → dev.pd = pd →
    ∃ dev', dev.run es = some dev' ∧ dev'.Tracks t ∧ dev'.pd = pd'

theorem Device.Tracks.modes {dev : Device} {s : State} (h : dev.Tracks s) : dev.modes = .assumed dev.pd := by
  obtain ⟨hv, hh, -, -⟩ := h
  rw [Device.modes, hv, hh, Modes.assumed]

theorem Resyncs.refl (pd : Bool) (s : State) : Resyncs pd pd s s :=
  ⟨[], (List.append_nil _).symm, fun dev h hpd => ⟨dev, rfl, h, hpd⟩⟩

theorem Resyncs.trans {p p' p'' : Bool} {s t u : State} (h : Resyncs p p' s t) (h' : Resyncs p' p'' t u) :
    Resyncs p p'' s u := by
  obtain ⟨es, hes, hrun⟩ := h
  obtain ⟨fs, hfs, hrun'⟩ := h'
  refine ⟨es ++ fs, by rw [hfs, hes, List.append_assoc], fun dev hdev hpd => ?_⟩
  obtain ⟨dev', hrun, hdev', hpd'⟩ := hrun dev hdev hpd
  obtain ⟨dev'', hrun', hdev'', hpd''⟩ := hrun' dev' hdev' hpd'
  exact ⟨dev'', (Device.run_append_of hrun fs).trans hrun', hdev'', hpd''⟩

/-- R76: events that end in the assumed modes, and then the positioning at the cursor, put the pointer there wherever it was. -/
theorem Resyncs.of_positioned {pd pd' : Bool} {s t : State} {es : List Event} (hc : Cfg.isDefault s.cfg)
    (hes : ModesRun es (.assumed pd) (.assumed pd'))
    (hlog : t.log = s.log ++ (es ++ positioning s.cfg t.cur.col t.cur.row)) : Resyncs pd pd' s t := by
  refine ⟨_, hlog, fun dev hdev hpd => ?_⟩
  obtain ⟨d, hrun, hd⟩ := hes dev (hpd ▸ hdev.modes)
  obtain ⟨hpd', hv, hh⟩ : d.pd = pd' ∧ d.v = false ∧ d.h = false := by
    simpa only [Device.modes, Modes.assumed, Modes.mk.injEq] using hd
  have hposition := Device.run_position hc d hh t.cur.col t.cur.row
  exact ⟨_, (Device.run_append_of hrun _).trans hposition, ⟨hv, hh, rfl, rfl⟩, hpd'⟩

/-- A response moves nothing. -/
theorem Resyncs.respond {pd pd' : Bool} {s t : State} (h : Resyncs pd pd' s t) (v : Value) :
    Resyncs pd pd' s (respond v t) := h

/-- Neither does a fault. -/
theorem Resyncs.raise (pd : Bool) (s : State) (e : ErrCode) : Resyncs pd pd s (raise e s) := Resyncs.refl pd s

/-- What a gated request does to a READY block is its body. -/
theorem Resyncs.of_gate {pd pd' : Bool} {s t : State} {body : State → State} (hm : s.mode = .ready)
    (h : Host.Outcome.next (φ := Fault) (ρ := Refusal) (whenReady body s) = .next t) (hbody : Resyncs pd pd' s (body s)) :
    Resyncs pd pd' s t := by
  rw [whenReady_of_ready hm] at h
  exact Host.Outcome.next.inj h ▸ hbody

/-- A function set moves no pointer (R144). -/
theorem Resyncs.functionSet {b : Byte} (hb : b.extractLsb' 3 5 = 0b00100#5) (hv : b.getLsbD 1 = false)
    (hh : b.getLsbD 0 = false) (pd : Bool) (s : State) : Resyncs pd (b.getLsbD 2) s (emit [.cmd b] s) := by
  refine ⟨_, rfl, fun dev hdev _ => ?_⟩
  obtain ⟨-, -, hx, hy⟩ := hdev
  exact ⟨_, Device.run_functionSet b dev hb, ⟨hv, hh, hx, hy⟩, rfl⟩

theorem Resyncs.foldl {α : Type} {pd : Bool} {f : State → α → State} (htext : ∀ s a, TextStep s (f s a))
    (hf : ∀ {s}, Cfg.isDefault s.cfg → ∀ a, Resyncs pd pd s (f s a)) {s : State} (hc : Cfg.isDefault s.cfg)
    (as : List α) : Resyncs pd pd s (as.foldl f s) := by
  induction as generalizing s with
  | nil => exact .refl pd s
  | cons a as ih => exact (hf hc a).trans (ih ((htext s a).cfg ▸ hc))

/-! ### One lemma for each body, on a block with the default command bytes -/

section
variable {s : State} (hc : Cfg.isDefault s.cfg) (pd : Bool)
include hc

theorem initBody_resyncs (h7 : s.cfg.contrast.getLsbD 7 = true) : Resyncs pd false s (initBody s) := by
  rw [initBody_eq]
  refine .of_positioned hc (.append (.initCommands hc h7 _) (.stream hc rfl (zeros 504))) ?_
  simp [clearEvents]

theorem clearBody_resyncs : Resyncs pd pd s (clearBody s) := by
  rw [clearBody_eq]
  refine .of_positioned hc (.stream hc rfl (zeros 504)) ?_
  simp [clearEvents]

theorem setCursorBody_resyncs (col row : Nat) : Resyncs pd pd s (setCursorBody col row s) := by
  by_cases h : col < 84 ∧ row < 6
  · rw [setCursorBody_of_lt s h.1 h.2]
    exact .of_positioned hc (.nil _) rfl
  · rw [setCursorBody_of_not s h]
    exact .refl pd s

theorem scrollBody_resyncs : Resyncs pd pd s (scrollBody s) := by
  rw [scrollBody_eq]
  refine .of_positioned hc (.stream hc rfl (s.sh.scrollUp.bytes 0 420 ++ zeros 84)) ?_
  simp [scrollEvents]

theorem newLineBody_resyncs : Resyncs pd pd s (newLineBody s) := by
  rcases Nat.lt_or_ge s.cur.row.val 5 with hr | hr
  · rw [newLineBody_of_lt s hr]
    exact .of_positioned hc (.nil _) rfl
  · rw [newLineBody_of_last s (by omega)]
    exact .of_positioned hc (.scrollEvents hc pd _ s.cur.col 5) rfl

/-- A glyph byte, in its three ways to advance (R82): within the row, to the next row, and past the screen's end. -/
theorem putByte_resyncs (b : Byte) : Resyncs pd pd s (putByte s b) := by
  rcases Nat.lt_or_ge s.cur.col.val 83 with hcol | hcol
  · rw [putByte_of_lt s b hcol]
    exact .of_positioned hc (.data [b] _) rfl
  · have hcol : s.cur.col.val = 83 := by omega
    rcases Nat.lt_or_ge s.cur.row.val 5 with hr | hr
    · rw [putByte_of_row_end s b hcol hr]
      exact .of_positioned hc (.data [b] _) rfl
    · rw [putByte_of_screen_end s b hcol (by omega)]
      exact .of_positioned hc (.append (.data [b] _) (.scrollEvents hc pd _ 0 5)) rfl

theorem printCharBody_resyncs (g : Fin 95) : Resyncs pd pd s (printCharBody g s) :=
  .foldl putByte_textStep (fun hc => putByte_resyncs hc pd) hc _

theorem printByte_resyncs (b : Byte) : Resyncs pd pd s (printByte s b) := by
  unfold printByte
  split_ifs
  · exact printCharBody_resyncs hc pd _
  · exact newLineBody_resyncs hc pd
  · exact printCharBody_resyncs hc pd _

theorem printText_resyncs (text : List Byte) : Resyncs pd pd s (text.foldl printByte s) :=
  .foldl printByte_textStep (fun hc => printByte_resyncs hc pd) hc text

/-- R92 with R144: the upload leaves vertical addressing with a function set that clears the power-down bit. -/
theorem drawBufferBody_resyncs (frame : List Byte) : Resyncs pd false s (drawBufferBody frame s) := by
  rw [drawBufferBody_eq]
  refine .of_positioned hc
    (.append (.cmdFsVert hc _) (.append (.stream hc rfl frame) (.cmdFsBasic hc _))) ?_
  simp [uploadEvents]

theorem wakeUp_resyncs : Resyncs pd false s (emit [.cmd s.cfg.cmdFsBasic] s) := by
  rw [hc.cmdFsBasic]
  exact .functionSet (by decide) rfl rfl pd s

theorem powerDownBody_resyncs : Resyncs pd true s (powerDownBody s) := by
  have hblank : Resyncs pd pd s (setCursorBody s.cur.col s.cur.row (emitData (zeros 504) (setCursorBody 0 0 s))) :=
    .of_positioned hc (.stream hc rfl (zeros 504)) (by simp [setCursorBody_origin, setCursorBody_cur])
  unfold powerDownBody
  rw [hc.cmdFsPd]
  exact hblank.trans (.functionSet (by decide) rfl rfl pd _)

theorem blinkBody_resyncs (n : Nat) : Resyncs pd pd s (blinkBody n s) := by
  rw [blinkBody_eq]
  split_ifs
  · exact .refl pd s
  · exact .of_positioned hc (.replicate (.blinkEvents hc pd _) n) rfl

end

/-! ### Every request -/

theorem exec_generates_resyncs {i : Instr} {s t : State} (hi : generates i = true) (pd : Bool) (h : exec i s = .next t) :
    Resyncs pd pd s t := by
  obtain ⟨v, hv⟩ | ⟨e, he⟩ := exec_of_generates hi
  · obtain rfl := Host.Outcome.next.inj ((hv s).symm.trans h)
    exact (Resyncs.refl pd s).respond v
  · obtain rfl := Host.Outcome.next.inj ((he s).symm.trans h)
    exact .raise pd s e

theorem exec_drawBuffer_resyncs {f : List Byte} {s t : State} (hc : Cfg.isDefault s.cfg) (hm : s.mode = .ready)
    (pd : Bool) (h : exec (.drawBuffer f) s = .next t) (hf : f.length = 504) : Resyncs pd false s t := by
  refine .of_gate hm h ?_
  rw [if_pos hf]
  exact (drawBufferBody_resyncs hc pd f).respond _

/-- R150: after every request but a completed upload the power-down bit is what the rule on requests says. -/
theorem exec_resyncs {i : Instr} {s t : State} (hc : DefaultCommands s.cfg) (hm : s.mode = .ready) (pd : Bool)
    (h : exec i s = .next t) (hi : ¬∃ f, i = .drawBuffer f ∧ f.length = 504) :
    Resyncs pd (powerSaveAfter i pd) s t := by
  obtain ⟨h7, hc⟩ := hc
  cases i with
  | init => obtain rfl := Host.Outcome.next.inj h; exact (initBody_resyncs hc pd h7).respond _
  | clear => exact .of_gate hm h ((clearBody_resyncs hc pd).respond _)
  | print text => exact .of_gate hm h ((printText_resyncs hc pd text).respond _)
  | printChar ch => exact .of_gate hm h ((printCharBody_resyncs hc pd _).respond _)
  | setCursor col row => exact .of_gate hm h ((setCursorBody_resyncs hc pd _ _).respond _)
  | drawBuffer frame =>
    refine .of_gate hm h ?_
    rw [if_neg fun hlen => hi ⟨frame, rfl, hlen⟩]
    exact .raise pd s _
  | newLine => exact .of_gate hm h ((newLineBody_resyncs hc pd).respond _)
  | scroll => exact .of_gate hm h ((scrollBody_resyncs hc pd).respond _)
  | powerDown => exact .of_gate hm h ((powerDownBody_resyncs hc pd).respond _)
  | wakeUp => exact .of_gate hm h ((wakeUp_resyncs hc pd).respond _)
  | blink n => exact .of_gate hm h ((blinkBody_resyncs hc pd _).respond _)
  | sine _ | dist _ | genRadial _ | genInterf _ | genFractal _ => exact exec_generates_resyncs rfl pd h

/-- Settles O56: after a completed upload the power-down bit is clear, which is R150's rule too unless the bit was set; after
every other request it is R150's. -/
theorem everyRequestResyncsDevice : Obligations.EveryRequestResyncsDevice := by
  intro i s t dev hc hm hdev h
  by_cases hi : ∃ f, i = .drawBuffer f ∧ f.length = 504
  · obtain ⟨f, rfl, hf⟩ := hi
    obtain ⟨es, hlog, hrun⟩ := exec_drawBuffer_resyncs hc.2 hm dev.pd h hf
    obtain ⟨dev', hrun, htracks, hpd⟩ := hrun dev hdev rfl
    refine ⟨es, dev', hlog, hrun, htracks, fun hn => ?_, fun _ => hpd⟩
    have hclear : dev.pd = false := Bool.eq_false_iff.mpr fun hset => hn ⟨⟨f, rfl, hf⟩, hset⟩
    exact hpd.trans hclear.symm
  · obtain ⟨es, hlog, hrun⟩ := exec_resyncs hc hm dev.pd h hi
    obtain ⟨dev', hrun, htracks, hpd⟩ := hrun dev hdev rfl
    exact ⟨es, dev', hlog, hrun, htracks, fun _ => hpd, fun hup => absurd hup hi⟩

end Sys2Proof.Machine
end

section
/-! SUPPORT. The statements of 20_memory.md: the shadow's addresses, the little-endian byte stream, and what the reference
device displays beside the shadow. -/

namespace Sys2Proof.Machine

open Sys2Proof.Claims

/-! ### The shadow's addresses (R36) -/

/-- An index is the address of the position its quotient and remainder by the row length give, and of no other. -/
theorem offset_eq_iff (col : Fin 84) (row : Fin 6) (i : Fin 504) :
    offset col row = i ↔ col.val = i.val % 84 ∧ row.val = i.val / 84 := by
  simp only [offset, Fin.ext_iff]
  omega

/-- Settles O8: the one position of an index is its remainder and quotient by 84. -/
theorem offsetCoversShadowOnce : Obligations.OffsetCoversShadowOnce := by
  refine ⟨fun _ _ => rfl, fun i => ?_⟩
  refine ⟨(⟨i % 84, by omega⟩, ⟨i / 84, by omega⟩), (offset_eq_iff ..).mpr ⟨rfl, rfl⟩, fun p hp => ?_⟩
  obtain ⟨hcol, hrow⟩ := (offset_eq_iff ..).mp hp
  exact Prod.ext (Fin.ext hcol) (Fin.ext hrow)

/-! ### The serialized stream (R43, R59, R60, R63) -/

/-- The word an operation is encoded as says that operation. -/
theorem decodeWord_encode (i : Instr) : decodeWord (encode i).word = .ok (Laws.headOf i) := by
  cases i with
  | init => exact Laws.EncodedWord.init
  | clear => exact Laws.EncodedWord.clear
  | print text => exact Laws.EncodedWord.print text
  | printChar ch => exact Laws.EncodedWord.printChar ch
  | setCursor col row => exact Laws.EncodedWord.setCursor col row
  | drawBuffer frame => exact Laws.EncodedWord.drawBuffer frame
  | newLine => exact Laws.EncodedWord.newLine
  | scroll => exact Laws.EncodedWord.scroll
  | powerDown => exact Laws.EncodedWord.powerDown
  | wakeUp => exact Laws.EncodedWord.wakeUp
  | blink n => exact Laws.EncodedWord.blink n
  | sine imm => exact Laws.EncodedWord.sine imm
  | dist q => exact Laws.EncodedWord.dist q
  | genRadial t => exact Laws.EncodedWord.genRadial t
  | genInterf t => exact Laws.EncodedWord.genInterf t
  | genFractal t => exact Laws.EncodedWord.genFractal t

/-- The word of a well-formed operation announces the payload that stands behind it (R56, R60). -/
theorem payloadLen_encode {i : Instr} (hi : i.wf = true) : payloadLen (encode i).word = (encode i).payload.length := by
  rw [payloadLen, decodeWord_encode]
  cases i with
  | print bs | drawBuffer bs => exact Nat.mod_eq_of_lt (of_decide_eq_true hi)
  | _ => rfl

theorem decode_encode {i : Instr} (hi : i.wf = true) : decode (encode i) = .ok i := by
  rw [decode, decodeWord_encode]
  dsimp only
  rw [if_pos (payloadLen_encode hi).symm]
  cases i <;> rfl

/-- A request whose payload has the announced length is what a stream that begins with its bytes yields. -/
theorem takeRequest_bytes_append {r : Request} (hr : payloadLen r.word = r.payload.length) (rest : List Byte) :
    takeRequest (r.bytes ++ rest) = .ok (r, rest) := by
  simp only [Request.bytes, wordBytes, List.cons_append, List.nil_append, takeRequest, wordOfBytes_wordBytes, hr,
    List.length_append, Nat.le_add_right, if_true, List.take_left, List.drop_left]

/-- Settles O4: the stream yields the request and the rest, and the request decodes to its operation. -/
theorem serializedStreamRoundTrip : Obligations.SerializedStreamRoundTrip := by
  intro i rest hi
  simp only [decodeBytes, takeRequest_bytes_append (payloadLen_encode hi), decode_encode hi]

/-! ### What the device displays (R51) -/

/-- The modes R29 assumes, and the display RAM reads as the memory `m`; the pointer may be anywhere. -/
structure Device.Displays (dev : Device) (m : Memory) : Prop where
  v    : dev.v = false
  h    : dev.h = false
  dram : ∀ (c : Fin 84) (r : Fin 6), dev.dram.read (offset c r) = m.read (offset c r)

theorem Device.Coherent.displays {dev : Device} {s : State} (h : dev.Coherent s) : dev.Displays s.sh := by
  obtain ⟨⟨hv, hh, -, -⟩, hdram⟩ := h
  exact ⟨hv, hh, hdram⟩

/-- R51 of a device whose pointer is at the cursor. -/
theorem Device.Displays.coherent {dev : Device} {s : State} (h : dev.Displays s.sh) (hx : dev.x = s.cur.col)
    (hy : dev.y = s.cur.row) : dev.Coherent s := ⟨⟨h.v, h.h, hx, hy⟩, h.dram⟩

theorem Device.data_dram (b : Byte) (dev : Device) : (dev.data b).dram = dev.dram.write (offset dev.x dev.y) b := by
  simp only [Device.data, Device.stepDown, Device.stepRight]
  split_ifs <;> rfl

/-- The data byte of a character lands where the shadow's does, the pointer being at the cursor (R81, R147). -/
theorem Device.Coherent.data {dev : Device} {s : State} (h : dev.Coherent s) (b : Byte) :
    (dev.data b).Displays (s.sh.write (offset s.cur.col s.cur.row) b) := by
  obtain ⟨⟨hv, hh, hx, hy⟩, hdram⟩ := h
  have hmodes := Device.data_modes b dev
  refine ⟨(congrArg Modes.v hmodes).trans hv, (congrArg Modes.h hmodes).trans hh, fun c r => ?_⟩
  rw [Device.data_dram, hx, hy, Memory.read_write, Memory.read_write, hdram]

/-! ### Coherence after a request (R50, R51) -/

/-- The events of `LOG` between `s` and `t` run on `dev`, and leave it coherent with `t`. -/
def CoherentAfter (dev : Device) (s t : State) : Prop :=
  ∃ es dev', t.log = s.log ++ es ∧ dev.run es = some dev' ∧ dev'.Coherent t

theorem CoherentAfter.refl {dev : Device} {s : State} (h : dev.Coherent s) : CoherentAfter dev s s :=
  ⟨[], dev, (List.append_nil _).symm, rfl, h⟩

/-- Events that come first, whatever they leave the device displaying. -/
theorem CoherentAfter.of_run {dev d : Device} {s t u : State} {es : List Event} (hlog : t.log = s.log ++ es)
    (hrun : dev.run es = some d) (h : CoherentAfter d t u) : CoherentAfter dev s u := by
  obtain ⟨fs, dev', hfs, hrun', hdev'⟩ := h
  exact ⟨es ++ fs, dev', by rw [hfs, hlog, List.append_assoc], (Device.run_append_of hrun fs).trans hrun', hdev'⟩

/-- Events that write the display RAM whole, with the bytes of the shadow `t` has, and end with the pointer at its cursor. -/
theorem CoherentAfter.of_writeWhole {dev : Device} {s t : State} {es : List Event} {dram : Memory} {bs : List Byte}
    (hlog : t.log = s.log ++ es)
    (hrun : dev.run es = some { dev with dram := dram.writeFrom 0 bs, x := t.cur.col, y := t.cur.row })
    (hv : dev.v = false) (hh : dev.h = false) (hbs : bs.length = 504)
    (hsh : ∀ i, i < 504 → bs.getD i 0#8 = t.sh.read i) : CoherentAfter dev s t := by
  refine ⟨es, _, hlog, hrun, Device.Displays.coherent ⟨hv, hh, fun c r => ?_⟩ rfl rfl⟩
  rw [Memory.read_writeWhole dram hbs (offset c r).isLt, hsh _ (offset c r).isLt]

theorem CoherentAfter.trans {dev : Device} {s t u : State} (h : CoherentAfter dev s t)
    (h' : ∀ d : Device, d.Coherent t → CoherentAfter d t u) : CoherentAfter dev s u := by
  obtain ⟨_, d, hlog, hrun, hd⟩ := h
  exact .of_run hlog hrun (h' d hd)

/-- A response changes neither what is displayed nor where the cursor is. -/
theorem CoherentAfter.respond {dev : Device} {s t : State} (h : CoherentAfter dev s t) (v : Value) :
    CoherentAfter dev s (respond v t) := h

theorem CoherentAfter.of_gate {dev : Device} {s t : State} {body : State → State} (hm : s.mode = .ready)
    (h : Host.Outcome.next (φ := Fault) (ρ := Refusal) (whenReady body s) = .next t)
    (hbody : CoherentAfter dev s (body s)) : CoherentAfter dev s t := by
  rw [whenReady_of_ready hm] at h
  exact Host.Outcome.next.inj h ▸ hbody

theorem CoherentAfter.foldl {α : Type} {f : State → α → State} (htext : ∀ s a, TextStep s (f s a))
    (hf : ∀ {s dev}, Cfg.isDefault s.cfg → Device.Coherent dev s → ∀ a, CoherentAfter dev s (f s a)) {dev : Device}
    {s : State} (hc : Cfg.isDefault s.cfg) (hdev : dev.Coherent s) (as : List α) : CoherentAfter dev s (as.foldl f s) := by
  induction as generalizing s dev with
  | nil => exact .refl hdev
  | cons a as ih => exact (hf hc hdev a).trans fun d hd => ih ((htext s a).cfg ▸ hc) hd

/-! ### One lemma for each body, on a block with the default command bytes -/

section
variable {s : State} {dev : Device} (hc : Cfg.isDefault s.cfg)
include hc

/-- R76: the positioning puts the pointer at the cursor, wherever it was. -/
theorem setCursorBody_coherentAfter_of_lt (hdev : dev.Displays s.sh) {col row : Nat} (hcol : col < 84) (hrow : row < 6) :
    CoherentAfter dev s (setCursorBody col row s) := by
  rw [setCursorBody_of_lt s hcol hrow]
  exact ⟨_, _, rfl, Device.run_position hc dev hdev.h ⟨col, hcol⟩ ⟨row, hrow⟩,
    Device.Displays.coherent ⟨hdev.v, hdev.h, hdev.dram⟩ rfl rfl⟩

theorem setCursorBody_coherentAfter (hdev : dev.Coherent s) (col row : Nat) :
    CoherentAfter dev s (setCursorBody col row s) := by
  by_cases h : col < 84 ∧ row < 6
  · exact setCursorBody_coherentAfter_of_lt hc hdev.displays h.1 h.2
  · rw [setCursorBody_of_not s h]
    exact .refl hdev

theorem clearBody_coherentAfter (hv : dev.v = false) (hh : dev.h = false) : CoherentAfter dev s (clearBody s) := by
  rw [clearBody_eq]
  exact .of_writeWhole rfl (Device.run_clearEvents hc hh hv) hv hh (zeros_length 504) fun i _ => zeros_getD 504 i

theorem initBody_coherentAfter (h7 : s.cfg.contrast.getLsbD 7 = true) : CoherentAfter dev s (initBody s) :=
  .of_run rfl (Device.run_initCommands hc h7 dev)
    (clearBody_coherentAfter (s := { emit (initCommands s.cfg) s with mode := .ready }) hc rfl rfl)

/-- The stream of SCROLL_BODY is the whole shadow it leaves, so the display RAM before it does not matter (R88, R91). -/
theorem scrollBody_coherentAfter (hv : dev.v = false) (hh : dev.h = false) : CoherentAfter dev s (scrollBody s) := by
  rw [scrollBody_eq]
  exact .of_writeWhole rfl (Device.run_scrollEvents hc hh hv s.sh s.cur.col s.cur.row) hv hh
    (by rw [List.length_append, Memory.bytes_length, zeros_length]) fun i _ => getD_scrollStream s.sh i

theorem scrollBody_setCursorBody_coherentAfter (hv : dev.v = false) (hh : dev.h = false) (col row : Nat) :
    CoherentAfter dev s (setCursorBody col row (scrollBody s)) := by
  refine (scrollBody_coherentAfter hc hv hh).trans fun d hd => setCursorBody_coherentAfter ?_ hd col row
  rw [scrollBody_eq]; exact hc

theorem newLineBody_coherentAfter (hdev : dev.Coherent s) : CoherentAfter dev s (newLineBody s) := by
  unfold newLineBody
  split_ifs
  · exact scrollBody_setCursorBody_coherentAfter hc hdev.displays.v hdev.displays.h _ _
  · exact setCursorBody_coherentAfter hc hdev _ _

/-- ADVANCE positions the device in each of its three cases (R82), so the pointer may be off the cursor before it. -/
theorem advance_coherentAfter (hdev : dev.Displays s.sh) : CoherentAfter dev s (advance s) := by
  unfold advance
  split_ifs with hcol hrow
  · exact scrollBody_setCursorBody_coherentAfter (s := { s with cur := { s.cur with col := 0 } }) hc hdev.v hdev.h _ _
  · exact setCursorBody_coherentAfter_of_lt hc hdev (by omega) (by omega)
  · exact setCursorBody_coherentAfter_of_lt hc hdev (by omega) s.cur.row.isLt

theorem putByte_coherentAfter (hdev : dev.Coherent s) (b : Byte) : CoherentAfter dev s (putByte s b) :=
  .of_run (es := [.dat b]) rfl rfl
    (advance_coherentAfter (s := set s.cur.col s.cur.row b (emitData [b] s)) hc (hdev.data b))

theorem printCharBody_coherentAfter (hdev : dev.Coherent s) (g : Fin 95) : CoherentAfter dev s (printCharBody g s) :=
  .foldl putByte_textStep putByte_coherentAfter hc hdev _

theorem printByte_coherentAfter (hdev : dev.Coherent s) (b : Byte) : CoherentAfter dev s (printByte s b) := by
  unfold printByte
  split_ifs
  · exact printCharBody_coherentAfter hc hdev _
  · exact newLineBody_coherentAfter hc hdev
  · exact printCharBody_coherentAfter hc hdev _

theorem printText_coherentAfter (hdev : dev.Coherent s) (text : List Byte) :
    CoherentAfter dev s (text.foldl printByte s) :=
  .foldl printByte_textStep printByte_coherentAfter hc hdev text

end

/-- Settles O57: INIT, CLEAR and SCROLL write the whole display RAM; each other request is made of bytes written to the
display RAM and to the shadow at the same place, of scrolls, and of positionings at the cursor. -/
theorem textKeepsShadowCoherent : Obligations.TextKeepsShadowCoherent := by
  intro i s t dev hc hm hi hdev h
  obtain ⟨h7, hc⟩ := hc
  obtain ⟨hv, hh, -, -⟩ : dev.Tracks s := hdev.elim (·.1) (·.1)
  have hcoherent (hne : ¬(i = .init ∨ i = .clear ∨ i = .scroll)) : dev.Coherent s :=
    hdev.resolve_right fun hor => hne hor.2
  show CoherentAfter dev s t
  cases i with
  | init => obtain rfl := Host.Outcome.next.inj h; exact (initBody_coherentAfter hc h7).respond _
  | clear => exact .of_gate hm h ((clearBody_coherentAfter hc hv hh).respond _)
  | print text => exact .of_gate hm h ((printText_coherentAfter hc (hcoherent (by simp)) text).respond _)
  | printChar ch => exact .of_gate hm h ((printCharBody_coherentAfter hc (hcoherent (by simp)) _).respond _)
  | setCursor col row => exact .of_gate hm h ((setCursorBody_coherentAfter hc (hcoherent (by simp)) _ _).respond _)
  | newLine => exact .of_gate hm h ((newLineBody_coherentAfter hc (hcoherent (by simp))).respond _)
  | scroll => exact .of_gate hm h ((scrollBody_coherentAfter hc hv hh).respond _)
  | drawBuffer _ | powerDown | wakeUp | blink _ | sine _ | dist _ | genRadial _ | genInterf _ | genFractal _ =>
    exact absurd hi Bool.false_ne_true

/-! ### BLINK (R100) -/

theorem shadow_length (s : State) : (shadow s).length = 504 := Memory.bytes_length ..

theorem shadow_getD (s : State) {i : Nat} (hi : i < 504) : (shadow s).getD i 0#8 = s.sh.read i := by
  rw [shadow, List.getD_eq_getElem _ _ (by rwa [Memory.bytes_length]), Memory.bytes_getElem, Nat.zero_add]

/-- One iteration: the inverted bytes are overwritten by the bytes themselves. -/
theorem Device.run_blinkEvents {c : Cfg} (hc : Cfg.isDefault c) {dev : Device} (hh : dev.h = false) (hv : dev.v = false)
    {bs : List Byte} (hbs : bs.length = 504) :
    dev.run (blinkEvents c bs) = some { dev with
      dram := (dev.dram.writeFrom 0 (bs.map fun b => ~~~b)).writeFrom 0 bs, x := 0, y := 0 } := by
  have hdelay (d : Device) : d.run [.delay c.blinkDelay] = some d := rfl
  unfold blinkEvents
  rw [Device.run_stream hc hh hv (by rw [List.length_map, hbs]), Device.run_append_of (hdelay _),
    ← List.append_nil (dataEvents bs), Device.run_stream hc (by exact hh) (by exact hv) hbs]
  rfl

section
variable {s : State} {dev : Device} (hc : Cfg.isDefault s.cfg)
include hc

theorem blinkOnce_coherentAfter (hv : dev.v = false) (hh : dev.h = false) : CoherentAfter dev s (blinkOnce s) := by
  rw [blinkOnce_eq]
  exact .of_writeWhole rfl (Device.run_blinkEvents hc hh hv (shadow_length s)) hv hh (shadow_length s)
    fun _ hi => shadow_getD s hi

theorem blinkLoop_coherentAfter (hv : dev.v = false) (hh : dev.h = false) (n : Nat) :
    CoherentAfter dev s (blinkLoop (n + 1) s) := by
  induction n generalizing s dev with
  | zero => exact blinkOnce_coherentAfter hc hv hh
  | succ n ih =>
    refine (blinkOnce_coherentAfter hc hv hh).trans fun d hd => ih ?_ hd.displays.v hd.displays.h
    rw [blinkOnce_eq]; exact hc

theorem blinkBody_coherentAfter (hv : dev.v = false) (hh : dev.h = false) {n : Nat} (hn : n ≠ 0) :
    CoherentAfter dev s (blinkBody n s) := by
  obtain ⟨k, rfl⟩ := Nat.exists_eq_succ_of_ne_zero hn
  rw [blinkBody, if_neg hn]
  refine (blinkLoop_coherentAfter hc hv hh k).trans fun d hd => setCursorBody_coherentAfter ?_ hd _ _
  rw [blinkLoop_eq]; exact hc

end

theorem exec_blink_of_ready {s : State} (hm : s.mode = .ready) (n : BitVec 16) :
    exec (.blink n) s = .next (respond .none (blinkBody n.toNat s)) := by
  rw [← timeStep_eq]
  exact congrArg _ (whenReady_of_ready hm)

/-- Settles O60: the last stream of the last iteration is the shadow, and the cursor's positioning follows it. -/
theorem blinkRestoresScreen : Obligations.BlinkRestoresScreen := by
  intro s dev n hc hm hdev hn
  obtain ⟨hv, hh, -, -⟩ := hdev
  have hn : n.toNat ≠ 0 := fun h0 => hn (BitVec.eq_of_toNat_eq h0)
  exact ⟨_, (blinkBody_coherentAfter hc.2 hv hh hn).imp fun _ ⟨dev', h⟩ => ⟨dev', exec_blink_of_ready hm n, h⟩⟩

/-! ### DRAW_BUFFER (R92, R95, R96) -/

/-- The function set that ends an upload and that WAKE_UP sends changes the modes alone (R92, R98, R144). -/
theorem Device.run_cmdFsBasic {c : Cfg} (hc : Cfg.isDefault c) (dev : Device) :
    dev.run [.cmd c.cmdFsBasic] = some { dev with pd := false, v := false, h := false } := by
  rw [hc.cmdFsBasic]; exact Device.run_functionSet _ dev (by decide)

/-- The upload writes the display RAM column by column and ends in horizontal addressing, the pointer at the origin. -/
theorem Device.run_uploadEvents {c : Cfg} (hc : Cfg.isDefault c) (dev : Device) {frame : List Byte}
    (hf : frame.length = 504) :
    dev.run (uploadEvents c frame) = some { dev with
      dram := dev.dram.writeDown 0 frame, x := 0, y := 0, pd := false, v := false, h := false } := by
  have hvert : dev.run [.cmd c.cmdFsVert] = some { dev with pd := false, v := true, h := false } := by
    rw [hc.cmdFsVert]; exact Device.run_functionSet _ dev (by decide)
  have horigin (d : Device) (hh : d.h = false) : d.run (positioning c 0 0) = some { d with x := 0, y := 0 } :=
    Device.run_position hc d hh 0 0
  rw [uploadEvents, Device.run_append_of hvert, Device.run_append_of (horigin _ rfl),
    Device.run_append_of (Device.run_whole_down rfl rfl rfl hf), Device.run_append_of (Device.run_cmdFsBasic hc _),
    horigin _ rfl]

theorem exec_drawBuffer_of_ready {s : State} (hm : s.mode = .ready) {frame : List Byte} (hf : frame.length = 504) :
    exec (.drawBuffer frame) s = .next (respond .none (drawBufferBody frame s)) :=
  congrArg Host.Outcome.next ((whenReady_of_ready hm).trans (if_pos hf))

/-- Settles O58: byte `6c + b` of the stream lands in column `c` of bank `b`, and the shadow stores the frame as it came. -/
theorem uploadedFrameOnScreen : Obligations.UploadedFrameOnScreen := by
  intro s dev f hc hm _ hf
  refine ⟨_, uploadEvents s.cfg f, _, exec_drawBuffer_of_ready hm hf, by rw [respond_log, drawBufferBody_eq],
    Device.run_uploadEvents hc.2 dev hf, fun b c hb hcol => ⟨?_, ?_⟩⟩
  · rw [Memory.read_writeDown f _ hb (by omega) hcol, if_pos (by omega), Nat.sub_zero]
  · rw [respond_sh, drawBufferBody_eq, Memory.read_ofBytes_zero]

/-! ### POWER_DOWN and WAKE_UP (R97 to R99) -/

/-- POWER_DOWN clears the display RAM, leaves the pointer at the cursor and sets the power-down bit. -/
theorem Device.run_powerDownEvents {c : Cfg} (hc : Cfg.isDefault c) {dev : Device} (hh : dev.h = false)
    (hv : dev.v = false) (col : Fin 84) (row : Fin 6) :
    dev.run (powerDownEvents c col row) = some { dev with
      dram := dev.dram.writeFrom 0 (zeros 504), x := col, y := row, pd := true, v := false, h := false } := by
  have hpd (d : Device) : d.run [.cmd c.cmdFsPd] = some { d with pd := true, v := false, h := false } := by
    rw [hc.cmdFsPd]; exact Device.run_functionSet _ d (by decide)
  rw [powerDownEvents, Device.run_stream hc hh hv (zeros_length 504),
    Device.run_append_of (Device.run_position_from hc hh col row _), hpd]

/-- A device POWER_DOWN finds in the assumed modes ends in power-save, its display RAM zero. -/
theorem Device.powerDownEvents_blank {c : Cfg} (hc : Cfg.isDefault c) {dev : Device} (hh : dev.h = false)
    (hv : dev.v = false) (col : Fin 84) (row : Fin 6) :
    ∃ dev', dev.run (powerDownEvents c col row) = some dev' ∧ dev'.pd = true ∧
      ∀ i, i < 504 → dev'.dram.read i = 0x00#8 := by
  refine ⟨_, Device.run_powerDownEvents hc hh hv col row, rfl, fun i hi => ?_⟩
  rw [Memory.read_writeWhole dev.dram (zeros_length 504) hi, zeros_getD]

theorem exec_powerDown_of_ready {s : State} (hm : s.mode = .ready) :
    exec .powerDown s = .next (respond .none { s with
      log := s.log ++ powerDownEvents s.cfg s.cur.col s.cur.row }) :=
  powerDownBody_eq s ▸ congrArg Host.Outcome.next (whenReady_of_ready hm)

theorem exec_wakeUp_of_ready {s : State} (hm : s.mode = .ready) :
    exec .wakeUp s = .next (respond .none (emit [.cmd s.cfg.cmdFsBasic] s)) :=
  congrArg Host.Outcome.next (whenReady_of_ready hm)

/-- Settles O59: POWER_DOWN streams zeros to the device alone, and WAKE_UP is one function set. -/
theorem powerDownBlanksScreen : Obligations.PowerDownBlanksScreen := by
  intro s dev hc hm hdev
  obtain ⟨hv, hh, -, -⟩ := hdev
  obtain ⟨dev', hrun, hpd, hblank⟩ := Device.powerDownEvents_blank hc.2 hh hv s.cur.col s.cur.row
  exact ⟨_, _, _, _, dev', _, exec_powerDown_of_ready hm, rfl, hrun, hpd, hblank, rfl, rfl,
    exec_wakeUp_of_ready hm, rfl, Device.run_cmdFsBasic hc.2 dev', rfl, rfl, rfl, rfl⟩

end Sys2Proof.Machine
end

section
/-! SUPPORT. The statements of 30_encoding.md: the decoder and the encoder undo each other, the illegal words, the fields
and masks of the opcode map, the one response of every request, and the `show_*` lines. -/

namespace Sys2Proof.Machine

open Sys2Proof.Claims

/-! ### A word as its fields side by side (R53) -/

theorem append_eq_append_iff {m n : Nat} {x x' : BitVec m} {y y' : BitVec n} :
    x ++ y = x' ++ y' ↔ x = x' ∧ y = y' := by
  refine ⟨fun h => ?_, fun ⟨hx, hy⟩ => hx ▸ hy ▸ rfl⟩
  have hleft := congrArg (BitVec.extractLsb' n m) h
  have hright := congrArg (BitVec.extractLsb' 0 n) h
  rw [BitVec.extractLsb'_append_eq_left, BitVec.extractLsb'_append_eq_left] at hleft
  rw [BitVec.extractLsb'_append_eq_right, BitVec.extractLsb'_append_eq_right] at hright
  exact ⟨hleft, hright⟩

theorem immField_append_opField (w : Word) : immField w ++ opField w = w :=
  (BitVec.extractLsb'_append_extractLsb'_eq_extractLsb' rfl).trans BitVec.extractLsb'_eq_self

theorem halfField_append_byte1Field (w : Word) : halfField w ++ byte1Field w = immField w :=
  BitVec.extractLsb'_append_extractLsb'_eq_extractLsb' rfl

theorem byte3_append_byte2Field (w : Word) : w.extractLsb' 24 8 ++ byte2Field w = halfField w :=
  BitVec.extractLsb'_append_extractLsb'_eq_extractLsb' rfl

/-- The fields of formats K, L and T. -/
theorem halfField_byte1Field_opField (w : Word) : halfField w ++ byte1Field w ++ opField w = w := by
  rw [halfField_append_byte1Field, immField_append_opField]

/-- The fields of format C. -/
theorem byte3_byte2Field_byte1Field_opField (w : Word) :
    w.extractLsb' 24 8 ++ byte2Field w ++ byte1Field w ++ opField w = w := by
  rw [byte3_append_byte2Field, halfField_byte1Field_opField]

/-! ### One word for each head (R53, R58, R59) -/

/-- The word that says a head: the operation's own word, or the format-L word with that `LEN` (R53, R56). -/
def wordOf : Head → Word
  | .whole i => (encode i).word
  | .print len => len ++ 0#8 ++ 0x03#8
  | .drawBuffer len => len ++ 0#8 ++ 0x06#8

section
variable {w : Word} {h h' : Head} {op : Byte} (hop : (opField w).toNat = op.toNat)
include hop

theorem wordOf_formatN (e : ifZero (w.extractLsb' 8 24) w h = .ok h') (hh : wordOf h = 0#24 ++ op) : wordOf h' = w := by
  obtain ⟨rfl, hreserved⟩ := ifZero_ok e
  have himm : immField w = 0#24 := hreserved
  rw [hh, ← BitVec.eq_of_toNat_eq hop, ← himm, immField_append_opField]

theorem wordOf_formatK (e : ifZero (w.extractLsb' 16 16) w h = .ok h') (hh : wordOf h = 0#16 ++ byte1Field w ++ op) :
    wordOf h' = w := by
  obtain ⟨rfl, hreserved⟩ := ifZero_ok e
  have hhalf : halfField w = 0#16 := hreserved
  rw [hh, ← BitVec.eq_of_toNat_eq hop, ← hhalf, halfField_byte1Field_opField]

theorem wordOf_formatC (e : ifZero (w.extractLsb' 24 8) w h = .ok h')
    (hh : wordOf h = 0#8 ++ byte2Field w ++ byte1Field w ++ op) : wordOf h' = w := by
  obtain ⟨rfl, hreserved⟩ := ifZero_ok e
  have hbyte3 : w.extractLsb' 24 8 = 0#8 := hreserved
  rw [hh, ← BitVec.eq_of_toNat_eq hop, ← hbyte3, byte3_byte2Field_byte1Field_opField]

/-- Formats L and T. -/
theorem wordOf_formatT (e : ifZero (w.extractLsb' 8 8) w h = .ok h') (hh : wordOf h = halfField w ++ 0#8 ++ op) :
    wordOf h' = w := by
  obtain ⟨rfl, hreserved⟩ := ifZero_ok e
  have hbyte1 : byte1Field w = 0#8 := hreserved
  rw [hh, ← BitVec.eq_of_toNat_eq hop, ← hbyte1, halfField_byte1Field_opField]

/-- Formats S and U, which have no reserved field. -/
theorem wordOf_formatS (e : Except.ok (ε := DecodeError) h = .ok h') (hh : wordOf h = immField w ++ op) :
    wordOf h' = w := by
  obtain rfl := Except.ok.inj e
  rw [hh, ← BitVec.eq_of_toNat_eq hop, immField_append_opField]

end

/-- A legal word is the word of the head it decodes to: each row of the opcode map gives every bit of the word back. -/
theorem wordOf_of_decodeWord {w : Word} {h : Head} (e : decodeWord w = .ok h) : wordOf h = w := by
  unfold decodeWord at e
  split at e
  next hop => exact wordOf_formatN (op := 0x01#8) hop e rfl
  next hop => exact wordOf_formatN (op := 0x02#8) hop e rfl
  next hop => exact wordOf_formatT (op := 0x03#8) hop e rfl
  next hop => exact wordOf_formatK (op := 0x04#8) hop e rfl
  next hop => exact wordOf_formatC (op := 0x05#8) hop e rfl
  next hop => exact wordOf_formatT (op := 0x06#8) hop e rfl
  next hop => exact wordOf_formatN (op := 0x07#8) hop e rfl
  next hop => exact wordOf_formatN (op := 0x08#8) hop e rfl
  next hop => exact wordOf_formatN (op := 0x09#8) hop e rfl
  next hop => exact wordOf_formatN (op := 0x0A#8) hop e rfl
  next hop => exact wordOf_formatT (op := 0x0B#8) hop e rfl
  next hop => exact wordOf_formatS (op := 0x10#8) hop e rfl
  next hop => exact wordOf_formatS (op := 0x11#8) hop e rfl
  next hop => exact wordOf_formatT (op := 0x12#8) hop e rfl
  next hop => exact wordOf_formatT (op := 0x13#8) hop e rfl
  next hop => exact wordOf_formatT (op := 0x14#8) hop e rfl
  next => exact absurd e (by simp)

/-- No two words say one head. -/
theorem decodeWord_eq_ok_iff {w w' : Word} {h : Head} (hw' : decodeWord w' = .ok h) : decodeWord w = .ok h ↔ w = w' :=
  ⟨fun hw => (wordOf_of_decodeWord hw).symm.trans (wordOf_of_decodeWord hw'), fun hw => hw ▸ hw'⟩

theorem decodeWord_print (len : BitVec 16) : decodeWord (len ++ 0#8 ++ 0x03#8) = .ok (.print len) := by
  simpa [encode, Laws.headOf] using decodeWord_encode (.print (zeros len.toNat))

theorem decodeWord_drawBuffer (len : BitVec 16) : decodeWord (len ++ 0#8 ++ 0x06#8) = .ok (.drawBuffer len) := by
  simpa [encode, Laws.headOf] using decodeWord_encode (.drawBuffer (zeros len.toNat))

/-- A word that decodes to a whole operation has no payload to wait for. -/
theorem headOf_of_decodeWord {w : Word} {i : Instr} (e : decodeWord w = .ok (.whole i)) : Laws.headOf i = .whole i := by
  have hw : (encode i).word = w := wordOf_of_decodeWord e
  exact Except.ok.inj ((decodeWord_encode i).symm.trans (hw ▸ e))

/-! ### Requests (R56, R60) -/

/-- Settles O2: the word says the operation's head, and its payload has the length the word announces. -/
theorem decodeOfEncode : Obligations.DecodeOfEncode := fun _ hi => decode_encode hi

theorem payloadLen_lt (w : Word) : payloadLen w < 65536 := by
  unfold payloadLen
  split <;> omega

/-- Only a payload bounds an operation: LEN is a u16 (R56). -/
theorem wf_iff_payload_length (i : Instr) : i.wf = true ↔ (encode i).payload.length < 65536 := by
  cases i with
  | print bs | drawBuffer bs => exact decide_eq_true_iff
  | _ => exact iff_of_true rfl (Nat.zero_lt_succ _)

theorem wordOf_headOf (i : Instr) : wordOf (Laws.headOf i) = (encode i).word := by cases i <;> rfl

/-- An operation whose word says all of it has no payload. -/
theorem payload_encode_of_whole {i : Instr} (h : Laws.headOf i = .whole i) : (encode i).payload = [] := by
  cases i with
  | print bs | drawBuffer bs => cases h
  | _ => rfl

/-- What an accepted request is: the word says the operation's head, and the payload is the operation's own and as
long as the word announces. -/
theorem decode_ok {r : Request} {i : Instr} (e : decode r = .ok i) :
    decodeWord r.word = .ok (Laws.headOf i) ∧ r.payload = (encode i).payload ∧
      r.payload.length = payloadLen r.word := by
  unfold decode at e
  cases hw : decodeWord r.word with
  | error e' => simp [hw] at e
  | ok h =>
    simp only [hw] at e
    obtain ⟨hlen, e⟩ := (ite_eq_iff.mp e).resolve_right fun h => absurd h.2 (by simp)
    cases h with
    | whole j =>
      obtain rfl := Except.ok.inj e
      have hhead := headOf_of_decodeWord hw
      have hnone : payloadLen r.word = 0 := by rw [payloadLen, hw]
      have hempty : r.payload = [] := List.length_eq_zero_iff.mp (hlen.trans hnone)
      exact ⟨by rw [hhead], hempty.trans (payload_encode_of_whole hhead).symm, hlen⟩
    | print len | drawBuffer len =>
      obtain rfl := Except.ok.inj e
      have hfield : payloadLen r.word = len.toNat := by rw [payloadLen, hw]
      have hlenField : BitVec.ofNat 16 r.payload.length = len := by
        rw [hlen, hfield, BitVec.ofNat_toNat, BitVec.setWidth_eq]
      exact ⟨by rw [Laws.headOf, hlenField], rfl, hlen⟩

/-- Settles O3: word and payload are the operation's own, and a payload of the announced length fits the field LEN. -/
theorem encodeOfDecode : Obligations.EncodeOfDecode := by
  intro r i e
  obtain ⟨hw, hpayload, hlen⟩ := decode_ok e
  have hword : (encode i).word = r.word := (wordOf_headOf i).symm.trans (wordOf_of_decodeWord hw)
  refine ⟨?_, (wf_iff_payload_length i).mpr (hpayload ▸ hlen ▸ payloadLen_lt r.word)⟩
  calc encode i = ⟨(encode i).word, (encode i).payload⟩ := rfl
    _ = r := by rw [hword, ← hpayload]

/-! ### The illegal words (R59, R62) -/

theorem ifZero_error_iff {k : Nat} {reserved : BitVec k} {w : Word} {h : Head} :
    (∃ e, ifZero reserved w h = .error e) ↔ reserved.toNat ≠ 0 := by
  unfold ifZero
  split
  next hz => simp [hz]
  next hz => simpa [← BitVec.toNat_inj] using hz

theorem byte3_toNat (w : Word) : (w.extractLsb' 24 8).toNat = w.toNat / 16777216 := by
  have := w.isLt
  rw [BitVec.extractLsb'_toNat, Nat.shiftRight_eq_div_pow]
  omega

/-- Settles O5: a listed operation's word is illegal exactly where its format's reserved field is not zero. -/
theorem illegalWordsExactly : Obligations.IllegalWordsExactly := by
  intro w
  have himm : (w.extractLsb' 8 24).toNat = w.toNat / 256 := immField_toNat w
  have hhalf : (w.extractLsb' 16 16).toNat = w.toNat / 65536 := halfField_toNat w
  have hbyte1 : (w.extractLsb' 8 8).toNat = w.toNat / 256 % 256 := byte1Field_toNat w
  have hbyte3 := byte3_toNat w
  dsimp only
  rw [← opField_toNat]
  unfold decodeWord
  split
  case h_17 =>
    refine iff_of_true ⟨_, rfl⟩ (.inl fun hlisted => ?_)
    simp only [List.mem_cons, List.not_mem_nil, or_false] at hlisted
    grind
  all_goals rename_i hop; simp [hop, ifZero_error_iff, himm, hhalf, hbyte1, hbyte3, -BitVec.extractLsb'_toNat]

/-! ### The masks of the opcode map (R58) -/

section
variable (w : Word)

theorem eq_fields_iff (x : BitVec 16) (y op : Byte) :
    w = x ++ y ++ op ↔ halfField w = x ∧ byte1Field w = y ∧ opField w = op := by
  conv_lhs => rw [← halfField_byte1Field_opField w]
  rw [append_eq_append_iff, append_eq_append_iff, and_assoc]

theorem eq_bytes_iff (x y z op : Byte) :
    w = x ++ y ++ z ++ op ↔ w.extractLsb' 24 8 = x ∧ byte2Field w = y ∧ byte1Field w = z ∧ opField w = op := by
  refine (eq_fields_iff w (x ++ y) z op).trans ?_
  rw [← byte3_append_byte2Field, append_eq_append_iff, and_assoc]

theorem eq_immField_iff (x : BitVec 24) (op : Byte) : w = x ++ op ↔ immField w = x ∧ opField w = op := by
  conv_lhs => rw [← immField_append_opField w]
  exact append_eq_append_iff

/-- A mask that keeps `OP` whole, field by field. -/
theorem masked_eq_iff (m : BitVec 16) (n op : Byte) :
    w &&& (m ++ n ++ 0xFF#8) = 0#16 ++ 0#8 ++ op ↔
      halfField w &&& m = 0#16 ∧ byte1Field w &&& n = 0#8 ∧ opField w = op := by
  have hop : opField w &&& 0xFF#8 = opField w := BitVec.and_allOnes
  conv_lhs => rw [← halfField_byte1Field_opField w]
  rw [BitVec.and_append, BitVec.and_append, append_eq_append_iff, append_eq_append_iff, hop, and_assoc]

end

section
variable {w : Word} {op : Byte}

theorem masked_formatK_iff : w &&& 0xFFFF00FF#32 = 0#24 ++ op ↔ ∃ ch : Byte, w = 0#16 ++ ch ++ op := by
  have hhalf : halfField w &&& 0xFFFF#16 = halfField w := BitVec.and_allOnes
  refine (masked_eq_iff w 0xFFFF#16 0x00#8 op).trans ?_
  simp [eq_fields_iff, hhalf]

theorem masked_formatC_iff :
    w &&& 0xFF0000FF#32 = 0#24 ++ op ↔ ∃ col row : Byte, w = 0#8 ++ row ++ col ++ op := by
  have hbyte3 : w.extractLsb' 24 8 &&& 0xFF#8 = w.extractLsb' 24 8 := BitVec.and_allOnes
  have hhalf : halfField w &&& (0xFF#8 ++ 0x00#8) = 0#8 ++ 0#8 ↔ w.extractLsb' 24 8 = 0#8 := by
    rw [← byte3_append_byte2Field, BitVec.and_append, append_eq_append_iff, hbyte3]
    simp
  refine (masked_eq_iff w (0xFF#8 ++ 0x00#8) 0x00#8 op).trans ((and_congr_left' hhalf).trans ?_)
  simp [eq_bytes_iff]

/-- Formats L and T. -/
theorem masked_formatT_iff : w &&& 0x0000FFFF#32 = 0#24 ++ op ↔ ∃ t : BitVec 16, w = t ++ 0#8 ++ op := by
  have hbyte1 : byte1Field w &&& 0xFF#8 = byte1Field w := BitVec.and_allOnes
  refine (masked_eq_iff w 0x0000#16 0xFF#8 op).trans ?_
  simp [eq_fields_iff, hbyte1]

/-- Formats S and U. -/
theorem masked_formatS_iff : w &&& 0x000000FF#32 = 0#24 ++ op ↔ ∃ x : BitVec 24, w = x ++ op := by
  refine (masked_eq_iff w 0x0000#16 0x00#8 op).trans ?_
  simp [eq_immField_iff]

end

section
variable {w w' : Word} {head : BitVec 16 → Head} {op : Byte}

theorem decodes_iff_formatN {h : Head} (hw' : decodeWord w' = .ok h) :
    decodeWord w = .ok h ↔ w &&& 0xFFFFFFFF#32 = w' := by
  rw [decodeWord_eq_ok_iff hw', show w &&& 0xFFFFFFFF#32 = w from BitVec.and_allOnes]

theorem decodes_iff_formatT (hhead : ∀ t, decodeWord (t ++ 0#8 ++ op) = .ok (head t)) :
    (∃ t, decodeWord w = .ok (head t)) ↔ w &&& 0x0000FFFF#32 = 0#24 ++ op :=
  (exists_congr fun t => decodeWord_eq_ok_iff (hhead t)).trans masked_formatT_iff.symm

theorem decodes_iff_formatS {head : BitVec 24 → Head} (hhead : ∀ x, decodeWord (x ++ op) = .ok (head x)) :
    (∃ x, decodeWord w = .ok (head x)) ↔ w &&& 0x000000FF#32 = 0#24 ++ op :=
  (exists_congr fun x => decodeWord_eq_ok_iff (hhead x)).trans masked_formatS_iff.symm

end

/-- Settles O6: a row's words are those its fields make, and the row's mask keeps every bit that is no operand. -/
theorem opcodeTableAgrees : Obligations.OpcodeTableAgrees := fun _ =>
  ⟨decodes_iff_formatN (decodeWord_encode .init),
   decodes_iff_formatN (decodeWord_encode .clear),
   decodes_iff_formatT decodeWord_print,
   (exists_congr fun ch => decodeWord_eq_ok_iff (decodeWord_encode (.printChar ch))).trans masked_formatK_iff.symm,
   (exists₂_congr fun col row => decodeWord_eq_ok_iff (decodeWord_encode (.setCursor col row))).trans
     masked_formatC_iff.symm,
   decodes_iff_formatT decodeWord_drawBuffer,
   decodes_iff_formatN (decodeWord_encode .newLine),
   decodes_iff_formatN (decodeWord_encode .scroll),
   decodes_iff_formatN (decodeWord_encode .powerDown),
   decodes_iff_formatN (decodeWord_encode .wakeUp),
   decodes_iff_formatT fun n => decodeWord_encode (.blink n),
   decodes_iff_formatS fun imm => decodeWord_encode (.sine imm),
   decodes_iff_formatS fun q => decodeWord_encode (.dist q),
   decodes_iff_formatT fun t => decodeWord_encode (.genRadial t),
   decodes_iff_formatT fun t => decodeWord_encode (.genInterf t),
   decodes_iff_formatT fun t => decodeWord_encode (.genFractal t)⟩

/-! ### The operands (R54 to R57) -/

section
variable {w : Word} {h : Head} {op : Byte} (e : decodeWord w = .ok h)
include e

theorem toNat_of_formatT {x : BitVec 16} (hh : wordOf h = x ++ 0#8 ++ op) : x.toNat = w.toNat / 65536 := by
  rw [← halfField_toNat, ← wordOf_of_decodeWord e, hh, Laws.half_of_half]

theorem toNat_of_formatS {x : BitVec 24} (hh : wordOf h = x ++ op) : x.toNat = w.toNat / 256 := by
  rw [← immField_toNat, ← wordOf_of_decodeWord e, hh, Laws.imm_of_append]

/-- Formats K and C: `x` is ROW with the zero byte above it. -/
theorem toNat_of_byte1 {x : BitVec 16} {y : Byte} (hh : wordOf h = x ++ y ++ op) : y.toNat = w.toNat / 256 % 256 := by
  rw [← byte1Field_toNat, ← wordOf_of_decodeWord e, hh, byte1Field, Laws.byte1_of_half]

end

theorem row_toNat {w : Word} {col row : Byte} (e : decodeWord w = .ok (.whole (.setCursor col row))) :
    row.toNat = w.toNat / 65536 % 256 := by
  have hw : 0#8 ++ row ++ col ++ 0x05#8 = w := wordOf_of_decodeWord e
  rw [← byte2Field_toNat, ← hw, Laws.byte2_of_quarter]

/-- R57: the angle is negative from half the field's range on. -/
theorem angle_eq_ite {w : Word} {imm : BitVec 24} (himm : imm.toNat = w.toNat / 256) :
    angle imm = if w.toNat / 256 < 8388608 then (w.toNat / 256 : Int) else (w.toNat / 256 : Int) - 16777216 := by
  rw [angle_eq, BitVec.toInt_eq_toNat_cond, himm]
  split_ifs <;> omega

/-- Settles O7: each operand is a field of the word its row makes, widened without change or by its sign. -/
theorem operandValues : Obligations.OperandValues := fun _ =>
  ⟨fun _ e => toNat_of_byte1 e rfl, fun _ _ e => ⟨toNat_of_byte1 e rfl, row_toNat e⟩,
   fun _ e => toNat_of_formatT e rfl, fun _ e => toNat_of_formatT e rfl,
   fun n e => (timeStep_eq n).trans (toNat_of_formatT e rfl), fun t e => (timeStep_eq t).trans (toNat_of_formatT e rfl),
   fun t e => (timeStep_eq t).trans (toNat_of_formatT e rfl), fun t e => (timeStep_eq t).trans (toNat_of_formatT e rfl),
   fun q e => (squaredDistance_eq q).trans (toNat_of_formatS e rfl), fun _ e => angle_eq_ite (toNat_of_formatS e rfl)⟩

/-! ### Every request is answered (R61) -/

/-- The VALUE of a request that succeeds (R61). -/
def Answers : Instr → Value → Prop
  | .sine _, v => ∃ x, v = .i32 x
  | .dist _, v => ∃ x, v = .u8 x
  | .genRadial _, v | .genInterf _, v | .genFractal _, v => ∃ f, v = .frame f ∧ f.length = 504
  | _, v => v = .none

/-- How a request can end, with the VALUE of the answer. -/
inductive Ends (i : Instr) (s t : State) : Prop where
  | faulted (e : ErrCode) (h : t = raise e s)
  | answered (v : Value) (u : State) (h : t = respond v u) (value : Answers i v)

theorem Ends.of_gate {i : Instr} {s : State} {body : State → State} (h : Ends i s (body s)) :
    Ends i s (whenReady body s) := by
  cases hm : s.mode with
  | ready => rwa [whenReady_of_ready hm]
  | uninit => exact .faulted .notReady (whenReady_of_uninit hm)

/-- Every request ends, and one that succeeds answers with the VALUE of its kind. -/
theorem exec_ends (i : Instr) (s : State) : ∃ t, exec i s = .next t ∧ Ends i s t := by
  cases i with
  | init => exact ⟨_, rfl, .answered .none _ rfl rfl⟩
  | sine imm => exact ⟨_, rfl, .answered _ _ rfl ⟨_, rfl⟩⟩
  | dist q => exact ⟨_, rfl, .answered _ _ rfl ⟨_, rfl⟩⟩
  | genRadial t | genInterf t => exact ⟨_, rfl, .answered _ _ rfl ⟨_, rfl, pack_length _⟩⟩
  | genFractal t =>
    refine ⟨_, rfl, ?_⟩
    split
    · exact .faulted .timeRange rfl
    · exact .answered _ _ rfl ⟨_, rfl, pack_length _⟩
  | drawBuffer frame =>
    refine ⟨_, rfl, .of_gate ?_⟩
    split
    · exact .answered .none _ rfl rfl
    · exact .faulted .frameSize rfl
  | _ => exact ⟨_, rfl, .of_gate (.answered .none _ rfl rfl)⟩

/-- The response of a request that succeeds follows those of the state the request found. -/
theorem respond_responses_of_exec {i : Instr} {s u : State} {v : Value} (h : exec i s = .next (respond v u)) :
    (respond v u).responses = s.responses ++ [⟨readStatus u.status, 0#3, v⟩] := by
  obtain ⟨r, hr⟩ := (exec_cases h).one_response
  rw [respond_responses] at hr ⊢
  rw [(List.append_inj' hr rfl).1]

theorem code_toNat_le (e : ErrCode) : e.code.toNat ≤ 4 := by cases e <;> decide

/-- R59: an illegal word raises `E_ILLEGAL_OP` and leaves the port. -/
theorem step_of_illegal {s : State} {r : Request} {rest : List Request} (hc : s.cfg.wf = true) (hp : s.port = r :: rest)
    (hr : ∃ e, decodeWord r.word = .error e) : step s = .next (raise .illegalOp { s with port := rest }) := by
  obtain ⟨e, he⟩ := hr
  have hd : decode r = .error e := by rw [decode, he]
  obtain ⟨op, rfl⟩ | ⟨op, rfl⟩ := decodeWord_error he <;> simp only [step, accept, hc, hp, hd, if_true]

/-- Settles O13: a request ends by a fault, whose code the response names, or with the VALUE of its kind. -/
theorem everyRequestAnsweredOnce : Obligations.EveryRequestAnsweredOnce := by
  refine ⟨fun i s => ?_, fun s r rest hc hp hr => ⟨_, step_of_illegal hc hp hr, rfl⟩⟩
  obtain ⟨t, hexec, ⟨e, rfl⟩ | ⟨v, u, rfl, hv⟩⟩ := exec_ends i s
  · exact ⟨_, e.code, .none, hexec, rfl, code_toNat_le e, fun _ => rfl, fun h0 => absurd h0 (code_ne_zero e)⟩
  · refine ⟨_, 0#3, v, hexec, respond_responses_of_exec hexec, by decide, fun h0 => absurd rfl h0, fun _ => ?_⟩
    cases i <;> exact hv

/-! ### The `show_*` lines (R65) -/

theorem step_presentNext_encode {s : State} {i : Instr} (hc : s.cfg.wf = true) (hi : i.wf = true) :
    step (presentNext (encode i) s) = exec i s :=
  stepRunsDecodedRequest (presentNext (encode i) s) (encode i) s.port i hc rfl (decode_encode hi)

theorem wf_of_generator {g : Instr} (hg : g matches .genRadial _ | .genInterf _ | .genFractal _) : g.wf = true :=
  match g, hg with
  | .genRadial _, _ | .genInterf _, _ | .genFractal _, _ => rfl

/-- A generator answers a frame and does nothing else, where it accepts its time step (R114, R116, R121). -/
theorem exec_generator {g : Instr} (hg : g matches .genRadial _ | .genInterf _ | .genFractal _)
    (ht : ∀ t, g = .genFractal t → t.toNat ≤ 64) (s : State) :
    ∃ f, f.length = 504 ∧ exec g s = .next (respond (.frame f) s) :=
  match g, hg with
  | .genRadial _, _ | .genInterf _, _ => ⟨_, pack_length _, rfl⟩
  | .genFractal t, _ => by
    have hle : ¬timeStep t > fractalMaxT := by rw [timeStep_eq]; exact Nat.not_lt.mpr (ht t rfl)
    exact ⟨_, pack_length _, congrArg Host.Outcome.next (if_neg hle)⟩

theorem lastFrame_respond (f : List Byte) (s : State) : lastFrame (respond (.frame f) s) = some f := by
  rw [lastFrame, respond_responses, List.getLast?_append_of_ne_nil _ (List.cons_ne_nil _ _)]
  rfl

/-- Issuing a `show_*` line runs the generator, then the upload of the frame it answered. -/
theorem issue_showFrame {s : State} {g : Instr} {f : List Byte} (hc : s.cfg.wf = true) (hm : s.mode = .ready)
    (hg : g.wf = true) (hexec : exec g s = .next (respond (.frame f) s)) (hf : f.length = 504) :
    issue (.showFrame g) s = .next (respond .none (drawBufferBody f (respond (.frame f) s))) := by
  have hwf : (Instr.drawBuffer f).wf = true := (wf_iff_payload_length _).mpr (by rw [encode, hf]; decide)
  have hupload := step_presentNext_encode (s := respond (.frame f) s) hc hwf
  simp only [issue, step_presentNext_encode hc hg, hexec, lastFrame_respond]
  exact hupload.trans (exec_drawBuffer_of_ready (s := respond (.frame f) s) hm hf)

theorem shadowBytes_of_sh {s : State} {f : List Byte} (hsh : s.sh = Memory.ofBytes 0 f) (hf : f.length = 504) :
    shadowBytes s = f := by
  refine List.ext_getElem (by simp [shadowBytes, hf]) fun i _ hi => ?_
  simp [shadowBytes, hsh, Memory.read_ofBytes_zero, hi]

/-- Settles O39: the generator's answer is the frame the host presents next, and the upload stores it as it came. -/
theorem showUploadsGeneratedFrame : Obligations.ShowUploadsGeneratedFrame := by
  intro s g hc hm hg ht
  obtain ⟨f, hf, hexec⟩ := exec_generator hg ht s
  have hwf := wf_of_generator hg
  refine ⟨_, f, _, (step_presentNext_encode hc hwf).trans hexec, rfl, issue_showFrame hc hm hwf hexec hf,
    shadowBytes_of_sh ?_ hf, ?_⟩
  · rw [respond_sh, drawBufferBody_eq]
  · rw [respond_port, drawBufferBody_eq, respond_port]

/-! ### Written-out words (V9) -/

/-- Settles O1: the decoder computes on each of the words. -/
theorem specWordsDecode : Obligations.SpecWordsDecode := by
  unfold Obligations.SpecWordsDecode
  decide

end Sys2Proof.Machine
end

section
/-! SUPPORT. The statements of 41_lifecycle.md: the mode gate, INIT and CLEAR, and the modes and the blank screen they leave
the reference device with. -/

namespace Sys2Proof.Machine

open Sys2Proof.Claims

/-! ### The mode gate (R66) -/

/-- The model's fault is the statements' own. -/
theorem raise_eq_faulted (e : ErrCode) (s : State) : raise e s = faulted e.code s := by
  simp only [raise, faulted, recordErr_eq_recorded, readStatus]

/-- Settles O22: a gated request is the gate around a body, and a generator's answer or fault does not look at MODE. -/
theorem modeGate : Obligations.ModeGate := by
  refine ⟨fun i s hi hm => ?_, fun i s t m hi h => ?_⟩
  · obtain ⟨body, hbody⟩ := exec_of_gated hi
    rw [hbody, whenReady_of_uninit hm, raise_eq_faulted, ErrCode.code]
  · obtain ⟨v, hv⟩ | ⟨e, he⟩ := exec_of_generates hi
    · obtain rfl := Host.Outcome.next.inj ((hv s).symm.trans h)
      exact hv _
    · obtain rfl := Host.Outcome.next.inj ((he s).symm.trans h)
      exact he _

/-! ### INIT and CLEAR (R67, R70, R71) -/

/-- The events of INIT: the configuration commands, then the clear (R67). -/
def initEvents (c : Cfg) : List Event := initCommands c ++ clearEvents c

theorem exec_init (s : State) : exec .init s = .next (respond .none { s with
    mode := .ready, cur := ⟨0, 0⟩, sh := [], log := s.log ++ initEvents s.cfg }) :=
  initBody_eq s ▸ rfl

theorem exec_clear_of_ready {s : State} (hm : s.mode = .ready) : exec .clear s = .next (respond .none { s with
    cur := ⟨0, 0⟩, sh := [], log := s.log ++ clearEvents s.cfg }) :=
  clearBody_eq s ▸ congrArg Host.Outcome.next (whenReady_of_ready hm)

/-- The model's events of the clear are the statements' own (R70). -/
theorem clearEvents_eq (c : Cfg) :
    clearEvents c = setAt c 0 0 ++ (List.replicate 504 (.dat 0x00#8) ++ setAt c 0 0) := by
  rw [clearEvents, dataEvents, zeros, List.map_replicate]
  rfl

theorem clearEvents_length (c : Cfg) : (clearEvents c).length = 508 := by
  simp only [clearEvents, List.length_append, List.length_map, zeros_length, positioning_length]

theorem initEvents_length (c : Cfg) : (initEvents c).length = 514 := by
  rw [initEvents, List.length_append, clearEvents_length, initCommands]
  rfl

/-- Settles O23: the clear's positioning and zero bytes follow the six configuration commands. -/
theorem initEffect : Obligations.InitEffect := by
  intro s
  refine ⟨_, exec_init s, rfl, rfl, fun i _ => Memory.read_nil i, rfl, rfl, rfl, rfl, ?_⟩
  simp only [respond_log, initEvents, initCommands, clearEvents_eq, List.append_assoc]

/-- Settles O24: INIT overwrites mode, cursor and shadow with constants, and its events depend on CFG alone. -/
theorem initIdempotent : Obligations.InitIdempotent := fun s =>
  ⟨_, _, initEvents s.cfg, exec_init s, exec_init (State.constructed s.cfg), rfl, rfl, rfl, rfl, rfl,
    initEvents_length s.cfg, rfl⟩

/-- Settles O25: in READY the gate is open, and CLEAR_BODY writes the cursor, the shadow and the log alone. -/
theorem clearEffect : Obligations.ClearEffect := by
  intro s hm
  refine ⟨_, exec_clear_of_ready hm, ⟨rfl, rfl, rfl, rfl⟩, rfl, fun i _ => Memory.read_nil i, rfl, ?_⟩
  simp only [respond_log, clearEvents_eq, List.append_assoc]

/-! ### The reference device (R72, R150) -/

theorem Memory.read_writeFrom_zeros (m : Memory) {i : Nat} (hi : i < 504) :
    (m.writeFrom 0 (zeros 504)).read i = 0x00#8 := by
  rw [Memory.read_writeWhole m (zeros_length 504) hi, zeros_getD]

/-- INIT's events set every mode, the pointer and all 504 bytes of display RAM, so what the device was before does not
matter. -/
theorem Device.run_initEvents {c : Cfg} (hc : DefaultCommands c) (dev : Device) :
    dev.run (initEvents c) = some {
      dram := dev.dram.writeFrom 0 (zeros 504), x := 0, y := 0, pd := false, v := false, h := false, d := true, e := false
      vop := c.contrast.extractLsb' 0 7, tc := 0#2, bs := 4#3 } := by
  obtain ⟨h7, hdefault⟩ := hc
  rw [initEvents, Device.run_append_of (Device.run_initCommands hdefault h7 dev),
    Device.run_clearEvents hdefault rfl rfl]

/-- Settles O26: the zeros the shadow is cleared to are streamed to the device too, which INIT has first brought to the
modes CLEAR finds it in. -/
theorem clearedShadowAndScreen : Obligations.ClearedShadowAndScreen := by
  refine fun s => ⟨fun hm => ?_, ?_⟩
  · refine ⟨_, clearEvents s.cfg, exec_clear_of_ready hm, rfl, fun i _ => Memory.read_nil i, rfl, fun dev hc hdev => ?_⟩
    obtain ⟨hv, hh, -, -⟩ := hdev
    refine ⟨_, Device.run_clearEvents hc.2 hh hv, fun i hi => ?_⟩
    rw [Memory.read_writeFrom_zeros dev.dram hi]
  · refine ⟨_, initEvents s.cfg, exec_init s, rfl, fun i _ => Memory.read_nil i, rfl, fun dev hc => ?_⟩
    refine ⟨_, Device.run_initEvents hc dev, fun i hi => ?_⟩
    rw [Memory.read_writeFrom_zeros dev.dram hi]

/-- Settles O55: the modes are those of the six commands, and the clear blanks the display RAM and ends at the
origin. -/
theorem initConfiguresDevice : Obligations.InitConfiguresDevice := by
  intro s dev hc
  refine ⟨_, initEvents s.cfg, _, exec_init s, rfl, Device.run_initEvents hc dev, rfl, rfl, rfl, rfl,
    rfl, rfl, rfl, rfl, fun i hi => ?_, rfl, rfl⟩
  rw [Memory.read_writeFrom_zeros dev.dram hi]

end Sys2Proof.Machine
end

section
/-! SUPPORT. The statements of 42_text.md: SET_CURSOR, NEW_LINE and SCROLL, and the text engine of PRINT and PRINT_CHAR in
R84's linear form. -/

namespace Sys2Proof.Machine

open Sys2Proof.Claims

/-! ### The text requests of a READY block -/

theorem exec_setCursor_of_ready {s : State} (hm : s.mode = .ready) (col row : Byte) :
    exec (.setCursor col row) s = .next (respond .none (setCursorBody col.toNat row.toNat s)) :=
  congrArg Host.Outcome.next (whenReady_of_ready hm)

theorem exec_print_of_ready {s : State} (hm : s.mode = .ready) (text : List Byte) :
    exec (.print text) s = .next (respond .none (text.foldl printByte s)) :=
  congrArg Host.Outcome.next (whenReady_of_ready hm)

theorem exec_print_of_uninit {s : State} (hm : s.mode = .uninit) (text : List Byte) :
    exec (.print text) s = .next (raise .notReady s) :=
  congrArg Host.Outcome.next (whenReady_of_uninit hm)

theorem exec_printChar_of_ready {s : State} (hm : s.mode = .ready) (ch : Byte) :
    exec (.printChar ch) s = .next (respond .none (printCharBody (glyphIndex ch) s)) :=
  congrArg Host.Outcome.next (whenReady_of_ready hm)

theorem exec_newLine_of_ready {s : State} (hm : s.mode = .ready) :
    exec .newLine s = .next (respond .none (newLineBody s)) :=
  congrArg Host.Outcome.next (whenReady_of_ready hm)

theorem exec_scroll_of_ready {s : State} (hm : s.mode = .ready) :
    exec .scroll s = .next (respond .none { s with
      cur := ⟨s.cur.col, ⟨s.cur.row - 1, by omega⟩⟩, sh := s.sh.scrollUp
      log := s.log ++ scrollEvents s.cfg s.sh.scrollUp s.cur.col s.cur.row }) :=
  scrollBody_eq s ▸ congrArg Host.Outcome.next (whenReady_of_ready hm)

theorem TextStep.kept {s u : State} (h : TextStep s u) (v : Value) : Kept s (respond v u) :=
  ⟨h.mode, h.cfg, h.status, h.port⟩

theorem TextStep.answered {s u : State} (h : TextStep s u) (v : Value) : (respond v u).responses = answered s v := by
  rw [respond_responses, h.responses, h.status]; rfl

/-! ### SET_CURSOR (R73 to R75) -/

theorem positioning_toNat (c : Cfg) (col row : Byte) :
    positioning c col.toNat row.toNat = [.cmd (c.cmdSetY ||| row), .cmd (c.cmdSetX ||| col)] := by
  simp [positioning]

/-- Settles O27: SET_CURSOR_BODY positions the device and the cursor, or does nothing. -/
theorem setCursorEffect : Obligations.SetCursorEffect := by
  refine fun s col row hm => ⟨fun hc hr => ?_, fun hout => ?_⟩ <;> rw [exec_setCursor_of_ready hm]
  · rw [setCursorBody_of_lt s hc hr, positioning_toNat]; rfl
  · rw [setCursorBody_of_not s (by omega)]; rfl

/-! ### SCROLL (R88 to R91) -/

/-- The shadow after a scroll is the statements' own. -/
theorem Memory.read_scrollUp_eq (m : Memory) : m.scrollUp.read = scrolled m.read := funext (Memory.read_scrollUp m)

/-- The bytes SCROLL_BODY streams are the scrolled shadow in index order (R90). -/
theorem scrollStream_eq (m : Memory) : m.scrollUp.bytes 0 420 ++ zeros 84 = (List.range 504).map (scrolled m.read) := by
  refine List.ext_getElem (by simp) fun i hi _ => ?_
  rw [← List.getD_eq_getElem _ 0#8 hi, getD_scrollStream, Memory.read_scrollUp_eq]
  simp

/-- The model's events of a scroll are the statements' own. -/
theorem scrollEvents_eq (c : Cfg) (m : Memory) (col row : Nat) :
    scrollEvents c m.scrollUp col row = scrollLog c m.read col (row - 1) := by
  rw [scrollEvents, scrollStream_eq, ← List.append_assoc]; rfl

/-- Settles O35: what SCROLL_BODY writes, in the statements' terms. -/
theorem scrollEffect : Obligations.ScrollEffect := by
  refine fun s hm => ⟨_, exec_scroll_of_ready hm, ⟨rfl, rfl, rfl, rfl⟩, rfl, rfl, fun i _ => ?_, ?_, rfl⟩
  · exact Memory.read_scrollUp s.sh i
  · rw [respond_log, scrollEvents_eq]

/-- Settles O36: rows 1..5 have moved up, and the stream that overwrites the display RAM is the shadow they make. -/
theorem scrollShadowAndScreen : Obligations.ScrollShadowAndScreen := by
  refine fun s hm => ⟨_, scrollEvents s.cfg s.sh.scrollUp s.cur.col s.cur.row, exec_scroll_of_ready hm, rfl,
    fun r c hr hc => ?_, fun c hc => ?_, rfl, ?_, fun dev hdef hv hh => ?_⟩
  · rw [respond_sh, Memory.read_scrollUp, if_pos (by omega), Nat.mul_succ, Nat.add_right_comm]
  · rw [respond_sh, Memory.read_scrollUp, if_neg (by omega)]
  · dsimp only [respond_cur]; omega
  · refine ⟨_, Device.run_scrollEvents hdef.2 hh hv s.sh s.cur.col s.cur.row, fun i hi => ?_, rfl, rfl⟩
    rw [Memory.read_writeWhole _ (by simp) hi, getD_scrollStream, respond_sh]

/-! ### NEW_LINE (R87) -/

/-- Settles O34: the two cases of NEW_LINE_BODY. -/
theorem newLineEffect : Obligations.NewLineEffect := by
  refine fun s hm => ⟨fun hr => ?_, fun hr => ⟨_, exec_newLine_of_ready hm, ?_⟩⟩
  · rw [exec_newLine_of_ready hm, newLineBody_of_lt s hr]; rfl
  · rw [newLineBody_of_last s hr]
    refine ⟨⟨rfl, rfl, rfl, rfl⟩, rfl, fun i _ => Memory.read_scrollUp s.sh i, ?_, rfl⟩
    rw [respond_log, scrollEvents_eq]; rfl

/-! ### The cursor's linear position (R84) -/

section
variable (s : State)

theorem position_lt : position s < 504 := by unfold position; omega

theorem position_mod : position s % 84 = s.cur.col.val := by unfold position; omega

theorem position_div : position s / 84 = s.cur.row.val := by unfold position; omega

theorem offset_cur : (offset s.cur.col s.cur.row).val = position s := by
  dsimp only [offset, position]; omega

end

theorem cur_eq_of_position {s : State} {c : Cursor} (h : position s = 84 * c.row.val + c.col.val) : s.cur = c := by
  obtain ⟨col, row⟩ := c
  dsimp only at h
  have hcol : s.cur.col = col := Fin.ext (by rw [← position_mod]; omega)
  have hrow : s.cur.row = row := Fin.ext (by rw [← position_div]; omega)
  rw [← hcol, ← hrow]

/-- The cursor at a linear position. -/
def cursorAt (p : Nat) (h : p < 504) : Cursor := ⟨⟨p % 84, by omega⟩, ⟨p / 84, by omega⟩⟩

theorem position_of_cursorAt {s : State} {p : Nat} {h : p < 504} (hs : s.cur = cursorAt p h) : position s = p := by
  rw [position, hs, cursorAt]; exact Nat.div_add_mod p 84

/-- A glyph byte short of the screen's end, within a row or across one: `p + 1` (R82, R84). -/
theorem putByte_of_position_lt {s : State} (b : Byte) (h : position s + 1 < 504) :
    putByte s b = { s with
      cur := cursorAt (position s + 1) h, sh := s.sh.write (position s) b
      log := s.log ++ (.dat b :: setAt s.cfg ((position s + 1) % 84) ((position s + 1) / 84)) } := by
  have hmod := position_mod s
  have hdiv := position_div s
  rcases Nat.lt_or_ge s.cur.col.val 83 with hc | hc
  · have hcol : (position s + 1) % 84 = s.cur.col.val + 1 := by omega
    have hrow : (position s + 1) / 84 = s.cur.row.val := by omega
    rw [putByte_of_lt s b hc]
    simp only [cursorAt, hcol, hrow, offset_cur]
    rfl
  · have hcol : (position s + 1) % 84 = 0 := by omega
    have hrow : (position s + 1) / 84 = s.cur.row.val + 1 := by omega
    rw [putByte_of_row_end s b (by omega) (by omega)]
    simp only [cursorAt, hcol, hrow, offset_cur]
    rfl

/-- A glyph byte at the screen's end: the scroll, then `p = 420` (R83, R84). -/
theorem putByte_of_position_last {s : State} (b : Byte) (h : position s + 1 = 504) :
    putByte s b = { s with
      cur := ⟨0, 5⟩, sh := (s.sh.write (position s) b).scrollUp
      log := s.log ++ (.dat b :: (scrollLog s.cfg (s.sh.write (position s) b).read 0 4 ++ setAt s.cfg 0 5)) } := by
  have hmod := position_mod s
  have hdiv := position_div s
  rw [putByte_of_screen_end s b (by omega) (by omega), scrollEvents_eq, offset_cur]
  rfl

theorem row_eq_last_iff (s : State) : s.cur.row.val = 5 ↔ 420 ≤ position s := by unfold position; omega

/-- Settles O31: the two cases of a glyph byte and the two of a newline, by the position they start from. -/
theorem cursorEngineLinear : Obligations.CursorEngineLinear := by
  refine fun s => ⟨fun b => ⟨fun h => ?_, fun h => ?_⟩, fun h => ?_, fun h => ?_⟩
  · rw [putByte_of_position_lt b h]
    exact ⟨position_of_cursorAt (h := h) rfl, Memory.read_write s.sh (position s) b⟩
  · rw [putByte_of_position_last b h]
    refine ⟨rfl, fun i _ => ?_⟩
    rw [Memory.read_scrollUp, Memory.read_write]
  · rw [newLineBody_of_last s ((row_eq_last_iff s).mpr h)]
    exact ⟨rfl, fun i _ => Memory.read_scrollUp s.sh i⟩
  · have hdiv := position_div s
    rw [newLineBody_of_lt s (by omega), hdiv]
    exact ⟨rfl, rfl⟩

/-! ### The glyph of a byte (R25, R77, R78, R80) -/

/-- The bytes a printable byte is written as, in the statements' terms (R81). -/
def charBytes (c : Cfg) (ch : Byte) : List Byte := glyphColumns c ch ++ [0x00#8]

/-- The byte that is rendered: itself where printable, `?` otherwise (R78). -/
def rendered (ch : Byte) : Byte := if 0x20 ≤ ch.toNat ∧ ch.toNat ≤ 0x7E then ch else 0x3F#8

theorem charBytes_length (c : Cfg) (ch : Byte) : (charBytes c ch).length = 6 := by simp [charBytes, glyphColumns]

theorem glyphBytes_of_printable (c : Cfg) {ch : Byte} (h : 0x20 ≤ ch.toNat ∧ ch.toNat ≤ 0x7E) :
    glyphBytes c (glyphIndex ch) = charBytes c ch := by
  have hk : ch.toNat - 0x20 < c.glyph.toList.length := by rw [Vector.length_toList]; omega
  rw [glyphBytes, charBytes, glyphColumns, glyphIndex, dif_pos h, List.getD_eq_getElem _ _ hk]
  rfl

theorem glyphBytes_glyphIndex (c : Cfg) (ch : Byte) : glyphBytes c (glyphIndex ch) = charBytes c (rendered ch) := by
  unfold rendered
  split_ifs with h
  · exact glyphBytes_of_printable c h
  · rw [glyphIndex, dif_neg h]
    exact glyphBytes_of_printable (ch := 0x3F#8) c (by decide)

theorem printCharBody_eq (ch : Byte) (s : State) :
    printCharBody (glyphIndex ch) s = (charBytes s.cfg (rendered ch)).foldl putByte s := by
  rw [printCharBody, glyphBytes_glyphIndex]

theorem isPrintable_iff (b : Byte) : isPrintable b = true ↔ 0x20 ≤ b.toNat ∧ b.toNat ≤ 0x7E := by simp [isPrintable]

theorem isNewline_iff (b : Byte) : isNewline b = true ↔ b.toNat = 0x0A := by
  rw [isNewline, beq_iff_eq, ← BitVec.toNat_inj]; rfl

theorem printByte_of_printable {b : Byte} (h : 0x20 ≤ b.toNat ∧ b.toNat ≤ 0x7E) (s : State) :
    printByte s b = (charBytes s.cfg b).foldl putByte s := by
  rw [printByte, if_pos ((isPrintable_iff b).mpr h), printCharBody, glyphBytes_of_printable _ h]

theorem printByte_of_newline {b : Byte} (h : b.toNat = 0x0A) (s : State) : printByte s b = newLineBody s := by
  rw [printByte, if_neg (by rw [isPrintable_iff]; omega), if_pos ((isNewline_iff b).mpr h)]

theorem printByte_of_other {b : Byte} (hp : ¬(0x20 ≤ b.toNat ∧ b.toNat ≤ 0x7E)) (hn : ¬b.toNat = 0x0A) (s : State) :
    printByte s b = (charBytes s.cfg 0x3F#8).foldl putByte s := by
  rw [printByte, if_neg (by rwa [isPrintable_iff]), if_neg (by rwa [isNewline_iff]), printCharBody_eq]
  rfl

/-! ### The simulation of the linear engine (R84) -/

/-- The block is where the linear engine `l` is, and its log is `log` with the engine's events behind it. -/
structure Simulates (log : List Event) (s : State) (l : Linear) : Prop where
  p      : position s = l.p
  sh     : s.sh.read = l.sh
  events : s.log = log ++ l.events

theorem Simulates.start (s : State) : Simulates s.log s (Linear.start s) := ⟨rfl, rfl, (List.append_nil _).symm⟩

section
variable {log : List Event} {s : State} {l : Linear} (h : Simulates log s l)
include h

theorem Simulates.byte (b : Byte) : Simulates log (putByte s b) (Linear.byte s.cfg l b) := by
  obtain ⟨p, sh, es⟩ := l
  obtain ⟨rfl, rfl, hlog⟩ := h
  have hwrite := funext (Memory.read_write s.sh (position s) b)
  simp only [Linear.byte]
  split_ifs with hlast
  · rw [putByte_of_position_last b hlast, hwrite]
    refine ⟨rfl, ?_, ?_⟩
    · rw [Memory.read_scrollUp_eq, hwrite]; rfl
    · simp [hlog, Linear.scroll]
  · have hlt : position s + 1 < 504 := Nat.lt_of_le_of_ne (position_lt s) hlast
    rw [putByte_of_position_lt b hlt]
    exact ⟨position_of_cursorAt (h := hlt) rfl, hwrite, by simp [hlog]⟩

theorem Simulates.newline : Simulates log (newLineBody s) (Linear.newline s.cfg l) := by
  obtain ⟨p, sh, es⟩ := l
  obtain ⟨rfl, rfl, hlog⟩ := h
  simp only [Linear.newline]
  split_ifs with hlast
  · rw [newLineBody_of_last s ((row_eq_last_iff s).mpr hlast), scrollEvents_eq, ← position_mod]
    exact ⟨rfl, Memory.read_scrollUp_eq s.sh, by simp [hlog, Linear.scroll, setAt, positioning]⟩
  · have hdiv := position_div s
    simp only [hdiv]
    rw [newLineBody_of_lt s (by omega)]
    exact ⟨rfl, rfl, by simp [hlog, setAt, positioning]⟩

end

/-- Two folds over one list stay in simulation if each step keeps them there; the configuration is kept. -/
theorem Simulates.foldl {α : Type} {log : List Event} {f : State → α → State} {g : Cfg → Linear → α → Linear}
    (htext : ∀ s a, TextStep s (f s a))
    (hstep : ∀ {s l}, Simulates log s l → ∀ a, Simulates log (f s a) (g s.cfg l a)) {s : State} {l : Linear}
    (h : Simulates log s l) (as : List α) : Simulates log (as.foldl f s) (as.foldl (g s.cfg) l) := by
  induction as generalizing s l with
  | nil => exact h
  | cons a as ih =>
    rw [← (htext s a).cfg]
    exact ih ((htext s a).cfg ▸ hstep h a)

section
variable {log : List Event} {s : State} {l : Linear} (h : Simulates log s l)
include h

theorem Simulates.char (ch : Byte) : Simulates log ((charBytes s.cfg ch).foldl putByte s) (Linear.char s.cfg ch l) :=
  .foldl putByte_textStep Simulates.byte h (charBytes s.cfg ch)

theorem Simulates.textByte (b : Byte) : Simulates log (printByte s b) (Linear.textByte s.cfg l b) := by
  unfold Linear.textByte
  split_ifs with hp hn
  · rw [printByte_of_printable hp]; exact h.char b
  · rw [printByte_of_newline hn]; exact h.newline
  · rw [printByte_of_other hp hn]; exact h.char 0x3F#8

theorem Simulates.text (bs : List Byte) : Simulates log (bs.foldl printByte s) (Linear.text s.cfg bs l) :=
  .foldl printByte_textStep Simulates.textByte h bs

end

theorem Simulates.runsTo {s u : State} {l : Linear} (h : Simulates s.log u l) (htext : TextStep s u) :
    RunsTo s (respond .none u) l :=
  ⟨htext.kept .none, h.p, fun i _ => congrFun h.sh i, h.events, htext.answered .none⟩

/-- Settles O28, by the simulation of each byte. -/
theorem printIsLinearEngine : Obligations.PrintIsLinearEngine := fun s text hm =>
  ⟨_, exec_print_of_ready hm text, ((Simulates.start s).text text).runsTo (printText_textStep text s)⟩

/-- Settles O29: the six bytes of the byte rendered, each simulated. -/
theorem printCharIsLinearEngine : Obligations.PrintCharIsLinearEngine := by
  refine fun s ch hm => ⟨_, exec_printChar_of_ready hm ch, Simulates.runsTo ?_ (printCharBody_textStep _ s)⟩
  rw [printCharBody_eq]
  exact (Simulates.start s).char (rendered ch)

/-! ### Bytes within a row (R86) -/

/-- The events of glyph bytes written within a row from column `col` on: each byte, then its resync. -/
def inRowEvents (c : Cfg) (col row : Nat) (bs : List Byte) : List Event :=
  (List.range bs.length).flatMap fun k => .dat (bs.getD k 0x00#8) :: setAt c (col + (k + 1)) row

theorem inRowEvents_cons (c : Cfg) (col row : Nat) (b : Byte) (bs : List Byte) :
    inRowEvents c col row (b :: bs) = .dat b :: setAt c (col + 1) row ++ inRowEvents c (col + 1) row bs := by
  simp [inRowEvents, List.range_succ_eq_map, List.flatMap_map, Nat.add_assoc, Nat.add_comm 1]

/-- Glyph bytes that all stay within the row are written one behind the other. -/
theorem foldl_putByte_of_lt (bs : List Byte) (s : State) (h : s.cur.col.val + bs.length < 84) :
    bs.foldl putByte s = { s with
      cur := ⟨⟨s.cur.col + bs.length, h⟩, s.cur.row⟩, sh := s.sh.writeFrom (position s) bs
      log := s.log ++ inRowEvents s.cfg s.cur.col s.cur.row bs } := by
  induction bs generalizing s with
  | nil => simp [Memory.writeFrom, inRowEvents]
  | cons b bs ih =>
    rw [List.length_cons] at h
    rw [List.foldl_cons, putByte_of_lt s b (by omega), ih _ (by dsimp only; omega), inRowEvents_cons, offset_cur]
    simp [Memory.writeFrom, position, setAt, positioning, Nat.add_assoc, Nat.add_comm 1]

/-- Settles O30: the six bytes stay within the row. -/
theorem printCharWithinRow : Obligations.PrintCharWithinRow := by
  intro s ch hc hm bs
  have hlen : (charBytes s.cfg (rendered ch)).length = 6 := charBytes_length ..
  have hbody := foldl_putByte_of_lt (charBytes s.cfg (rendered ch)) s (by omega)
  have hread := Memory.read_writeFrom (charBytes s.cfg (rendered ch)) s.sh (position s)
  rw [← printCharBody_eq] at hbody
  simp only [hlen, inRowEvents] at hbody hread
  refine ⟨_, exec_printChar_of_ready hm ch, ?_⟩
  rw [hbody]
  refine ⟨⟨rfl, rfl, rfl, rfl⟩, rfl, fun k hk => ?_, fun i hi => ?_, rfl, rfl⟩
  · refine (hread (position s + k)).trans ?_
    rw [if_pos (by omega), Nat.add_sub_cancel_left]; rfl
  · exact (hread i).trans (if_neg hi)

/-! ### A text cut in two (R79) -/

/-- The state with another list of responses. -/
def withResponses (rs : List Response) (s : State) : State := { s with responses := rs }

theorem putByte_withResponses (rs : List Response) (s : State) (b : Byte) :
    putByte (withResponses rs s) b = withResponses rs (putByte s b) := by
  rcases Nat.lt_or_eq_of_le (position_lt s) with h | h
  · rw [putByte_of_position_lt b h]; exact putByte_of_position_lt (s := withResponses rs s) b h
  · rw [putByte_of_position_last b h]; exact putByte_of_position_last (s := withResponses rs s) b h

theorem newLineBody_withResponses (rs : List Response) (s : State) :
    newLineBody (withResponses rs s) = withResponses rs (newLineBody s) := by
  rcases Nat.lt_or_ge s.cur.row.val 5 with h | h
  · rw [newLineBody_of_lt s h]; exact newLineBody_of_lt (withResponses rs s) h
  · have h : s.cur.row.val = 5 := by omega
    rw [newLineBody_of_last s h]; exact newLineBody_of_last (withResponses rs s) h

theorem printCharBody_withResponses (rs : List Response) (g : Fin 95) (s : State) :
    printCharBody g (withResponses rs s) = withResponses rs (printCharBody g s) :=
  List.foldl_hom (withResponses rs) fun s b => putByte_withResponses rs s b

theorem printByte_withResponses (rs : List Response) (s : State) (b : Byte) :
    printByte (withResponses rs s) b = withResponses rs (printByte s b) := by
  unfold printByte
  split_ifs
  · exact printCharBody_withResponses rs _ s
  · exact newLineBody_withResponses rs s
  · exact printCharBody_withResponses rs _ s

theorem printText_withResponses (rs : List Response) (s : State) (text : List Byte) :
    text.foldl printByte (withResponses rs s) = withResponses rs (text.foldl printByte s) :=
  List.foldl_hom (withResponses rs) fun s b => printByte_withResponses rs s b

theorem recordErr_recordErr (st : Byte) (e : ErrCode) : recordErr (recordErr st e) e = recordErr st e := by
  refine recordErr_of_ne e ?_
  rw [errField_recordErr]
  split_ifs with h
  · exact code_ne_zero e
  · exact h

/-- A text printed after an answer does what it does without it. -/
theorem printText_respond (v : Value) (s : State) (text : List Byte) :
    text.foldl printByte (respond v s) = withResponses (respond v s).responses (text.foldl printByte s) :=
  printText_withResponses (respond v s).responses s text

/-- Settles O32: no byte of text looks at the responses, so the first part's answer changes nothing of the second; before
INIT the second fault finds the first recorded. -/
theorem printOfParts : Obligations.PrintOfParts := by
  intro s xs ys
  cases hm : s.mode with
  | uninit =>
    exact ⟨_, _, _, exec_print_of_uninit hm _, exec_print_of_uninit hm xs,
      exec_print_of_uninit (s := raise .notReady s) hm ys, rfl, rfl, rfl,
      (recordErr_recordErr s.status .notReady).symm, rfl⟩
  | ready =>
    have hready : (respond .none (xs.foldl printByte s)).mode = .ready := (printText_textStep xs s).mode.trans hm
    refine ⟨_, _, _, exec_print_of_ready hm _, exec_print_of_ready hm xs, exec_print_of_ready hready ys, ?_⟩
    rw [List.foldl_append, printText_respond]
    exact ⟨rfl, rfl, rfl, rfl, rfl⟩

/-! ### The scenario of the source (R85) -/

/-- A text of printable bytes is its glyphs' bytes, one behind the other. -/
theorem printText_of_printable {text : List Byte} (h : ∀ b ∈ text, 0x20 ≤ b.toNat ∧ b.toNat ≤ 0x7E) (s : State) :
    text.foldl printByte s = (text.flatMap (charBytes s.cfg)).foldl putByte s := by
  induction text generalizing s with
  | nil => rfl
  | cons b text ih =>
    obtain ⟨hb, htext⟩ := List.forall_mem_cons.mp h
    rw [List.foldl_cons, ih htext, (printByte_textStep s b).cfg, printByte_of_printable hb, List.flatMap_cons,
      List.foldl_append]

theorem flatMap_charBytes_length (c : Cfg) (text : List Byte) :
    (text.flatMap (charBytes c)).length = 6 * text.length := by
  simp [List.length_flatMap, charBytes_length, Nat.mul_comm]

/-- Byte `6j + k` of a text's glyphs is byte `k` of its character `j`. -/
theorem flatMap_charBytes_getD (c : Cfg) (text : List Byte) {j k : Nat} (hj : j < text.length) (hk : k < 6) :
    (text.flatMap (charBytes c)).getD (6 * j + k) 0x00#8 = (charBytes c (text.getD j 0)).getD k 0x00#8 := by
  induction text generalizing j with
  | nil => exact absurd hj (Nat.not_lt_zero j)
  | cons b text ih =>
    have hb : (charBytes c b).length = 6 := charBytes_length c b
    rw [List.flatMap_cons]
    cases j with
    | zero => rw [List.getD_append _ _ _ _ (by omega), Nat.mul_zero, Nat.zero_add]; rfl
    | succ j =>
      rw [List.getD_append_right _ _ _ _ (by omega), List.getD_cons_succ, ← ih (Nat.lt_of_succ_lt_succ hj)]
      congr 1; omega

/-- A text of printable bytes that stays within its row. -/
theorem printText_within_row {text : List Byte} (h : ∀ b ∈ text, 0x20 ≤ b.toNat ∧ b.toNat ≤ 0x7E) (s : State)
    (hrow : position s % 84 + 6 * text.length < 84) :
    position (text.foldl printByte s) = position s + 6 * text.length ∧
      (text.foldl printByte s).sh = s.sh.writeFrom (position s) (text.flatMap (charBytes s.cfg)) := by
  have hlen := flatMap_charBytes_length s.cfg text
  rw [position_mod] at hrow
  rw [printText_of_printable h, foldl_putByte_of_lt _ s (by omega)]
  exact ⟨by dsimp only [position]; omega, rfl⟩

/-- The same with a newline behind it, above the last row: the cursor is at the start of the next row. -/
theorem printLine_within_row {text : List Byte} (h : ∀ b ∈ text, 0x20 ≤ b.toNat ∧ b.toNat ≤ 0x7E) (s : State)
    (hrow : position s % 84 + 6 * text.length < 84) (hlast : position s < 420) :
    position ((text ++ [0x0A#8]).foldl printByte s) = 84 * (position s / 84 + 1) ∧
      ((text ++ [0x0A#8]).foldl printByte s).sh = s.sh.writeFrom (position s) (text.flatMap (charBytes s.cfg)) := by
  obtain ⟨hpos, hsh⟩ := printText_within_row h s hrow
  obtain ⟨-, -, hnewline⟩ := cursorEngineLinear (text.foldl printByte s)
  obtain ⟨hpos', hsh'⟩ := hnewline (by omega)
  rw [List.foldl_append, List.foldl_cons, List.foldl_nil, printByte_of_newline rfl]
  exact ⟨by omega, hsh'.trans hsh⟩

/-- "Hello,", the first line of the scenario. -/
def helloLine : List Byte := [0x48#8, 0x65#8, 0x6C#8, 0x6C#8, 0x6F#8, 0x2C#8]

/-- "world!", its second line. -/
def worldLine : List Byte := [0x77#8, 0x6F#8, 0x72#8, 0x6C#8, 0x64#8, 0x21#8]

/-- The first line fills the shadow from index 0 on and the second from index 84 on, the start of row 1. -/
theorem exec_print_hello_world {s : State} (hm : s.mode = .ready) (hp : position s = 0) :
    ∃ u, exec (.print ((helloLine ++ [0x0A#8]) ++ worldLine)) s = .next (respond .none u) ∧ position u = 120 ∧
      u.sh = (s.sh.writeFrom 0 (helloLine.flatMap (charBytes s.cfg))).writeFrom 84
        (worldLine.flatMap (charBytes s.cfg)) := by
  obtain ⟨hp₁, hsh₁⟩ := printLine_within_row (text := helloLine) (by decide) s (by rw [hp]; decide) (by omega)
  have hcfg := (printText_textStep (helloLine ++ [0x0A#8]) s).cfg
  rw [hp] at hp₁ hsh₁
  obtain ⟨hp₂, hsh₂⟩ := printText_within_row (text := worldLine) (by decide) _ (by rw [hp₁]; decide)
  refine ⟨_, exec_print_of_ready hm _, ?_⟩
  rw [List.foldl_append, hp₂, hsh₂, hp₁, hsh₁, hcfg]
  exact ⟨rfl, rfl⟩

/-- Settles O33: the two lines of glyphs are written at indexes 0 and 84, and no other byte is. -/
theorem helloWorldScenario : Obligations.HelloWorldScenario := by
  intro s hm hcur hblank
  obtain ⟨u, hexec, hp, hsh⟩ := exec_print_hello_world hm (by rw [position, hcur]; rfl)
  have hhello := flatMap_charBytes_length s.cfg helloLine
  have hworld := flatMap_charBytes_length s.cfg worldLine
  have hlen : helloLine.length = 6 ∧ worldLine.length = 6 := ⟨rfl, rfl⟩
  refine ⟨_, hexec, cur_eq_of_position hp, fun j k hj hk => ?_, fun j k hj hk => ?_, fun i hi hout => ?_⟩ <;>
    rw [respond_sh, hsh, Memory.read_writeFrom]
  · rw [if_neg (by omega), Memory.read_writeFrom, if_pos (by omega)]
    exact flatMap_charBytes_getD s.cfg helloLine hj hk
  · rw [if_pos (by omega), Nat.add_assoc, Nat.add_sub_cancel_left]
    exact flatMap_charBytes_getD s.cfg worldLine hj hk
  · rw [if_neg (by omega), Memory.read_writeFrom, if_neg (by omega), hblank i hi]

end Sys2Proof.Machine
end

section
/-! SUPPORT. The statements of 43_upload.md: the upload of a 504-byte frame, and the rejection of every other length. -/

namespace Sys2Proof.Machine

open Sys2Proof.Claims

/-! ### A frame of 504 bytes (R92, R94) -/

/-- The model's events of an upload are the statements' own. -/
theorem uploadEvents_eq (c : Cfg) (f : List Byte) :
    uploadEvents c f = [.cmd c.cmdFsVert] ++ setAt c 0 0 ++ data f ++ [.cmd c.cmdFsBasic] ++ setAt c 0 0 := by
  rw [uploadEvents, ← List.append_assoc, ← List.append_assoc, ← List.append_assoc]; rfl

/-- Settles O37: the upload writes the cursor, the shadow and the log alone, and the shadow reads back as the frame. -/
theorem drawBufferEffect : Obligations.DrawBufferEffect := by
  intro s f hm hf
  refine ⟨_, exec_drawBuffer_of_ready hm hf, ?_⟩
  rw [drawBufferBody_eq, uploadEvents_eq]
  exact ⟨⟨rfl, rfl, rfl, rfl⟩, shadowBytes_of_sh rfl hf, rfl, rfl, rfl⟩

/-! ### A frame of another length (R93) -/

/-- The mode gate answers first, then the size check (R128); neither leaves anything but its fault. -/
theorem exec_drawBuffer_of_wrong_length {f : List Byte} (hf : f.length ≠ 504) (s : State) :
    exec (.drawBuffer f) s = .next (if s.mode = .ready then faulted 3#3 s else faulted 2#3 s) := by
  cases hm : s.mode with
  | ready =>
    rw [if_pos rfl]
    exact congrArg Host.Outcome.next
      ((whenReady_of_ready hm).trans ((if_neg hf).trans (raise_eq_faulted .frameSize s)))
  | uninit =>
    rw [if_neg (by decide)]
    exact modeGate.1 (.drawBuffer f) s rfl hm

/-- Settles O38: the step takes the whole request from the port, then runs it on the state without it. -/
theorem wrongFrameLengthRejected : Obligations.WrongFrameLengthRejected := by
  refine fun s f hf => ⟨exec_drawBuffer_of_wrong_length hf s, fun rest hc hlen hp => ?_⟩
  have hwf : (Instr.drawBuffer f).wf = true := (wf_iff_payload_length _).mpr hlen
  rw [stepRunsDecodedRequest s _ rest _ hc hp (decode_encode hwf)]
  exact exec_drawBuffer_of_wrong_length hf { s with port := rest }

end Sys2Proof.Machine
end

section
/-! SUPPORT. The statements of 44_power_blink.md: POWER_DOWN and WAKE_UP, and the events and inverted bytes of BLINK. -/

namespace Sys2Proof.Machine

open Sys2Proof.Claims

/-! ### POWER_DOWN and WAKE_UP (R97, R98) -/

/-- The model's events of POWER_DOWN are the statements' own. -/
theorem powerDownEvents_eq (c : Cfg) (col row : Nat) :
    powerDownEvents c col row =
      setAt c 0 0 ++ List.replicate 504 (.dat 0x00#8) ++ setAt c col row ++ [.cmd c.cmdFsPd] := by
  rw [powerDownEvents, dataEvents, zeros, List.map_replicate, ← List.append_assoc, ← List.append_assoc]
  rfl

/-- Settles O40: the body writes the log alone, and its events are the statement's. -/
theorem powerDownEffect : Obligations.PowerDownEffect := by
  intro s hm
  rw [exec_powerDown_of_ready hm, powerDownEvents_eq]
  rfl

/-- Settles O41: in READY the gate is open, and the body emits its one command. -/
theorem wakeUpEffect : Obligations.WakeUpEffect := fun _ hm => exec_wakeUp_of_ready hm

/-! ### The events of BLINK (R100, R102) -/

/-- The model's reading of the shadow is the statements' own. -/
theorem shadow_eq_shadowBytes (s : State) : shadow s = shadowBytes s := by
  simp only [shadow, Memory.bytes, shadowBytes, Nat.zero_add]

/-- The model's events of one iteration are the statements' own. -/
theorem blinkEvents_eq (c : Cfg) (bs : List Byte) :
    blinkEvents c bs =
      setAt c 0 0 ++ data (bs.map fun b => ~~~b) ++ [.delay c.blinkDelay] ++ setAt c 0 0 ++ data bs := by
  rw [blinkEvents, ← List.append_assoc, ← List.append_assoc, ← List.append_assoc]
  rfl

/-- The events of BLINK: `n` iterations, and the return to the kept cursor where there was one. -/
def blinkLog (s : State) (n : Nat) : List Event :=
  (List.replicate n (blinkEvents s.cfg (shadow s))).flatten ++
    if n = 0 then [] else positioning s.cfg s.cur.col s.cur.row

/-- BLINK writes the log alone, for every count. -/
theorem blinkBody_eq_emit (n : Nat) (s : State) : blinkBody n s = emit (blinkLog s n) s := by
  rw [blinkBody_eq, blinkLog]
  split
  next h => subst h; simp [emit]
  next => rfl

/-- Settles O42: the log grows by BLINK's events, in the statement's terms. -/
theorem blinkEffect : Obligations.BlinkEffect := by
  intro s n hm
  have hn : n.toNat = 0 ↔ n = 0#16 := (BitVec.toNat_eq (y := 0#16)).symm
  rw [exec_blink_of_ready hm, blinkBody_eq_emit, blinkLog, blinkEvents_eq, shadow_eq_shadowBytes]
  simp only [hn]
  rfl

/-! ### The inverted phase (R101) -/

theorem exec_blink_sh {s t : State} {n : BitVec 16} (h : exec (.blink n) s = .next t) : t.sh = s.sh := by
  cases hm : s.mode with
  | uninit =>
    obtain rfl := Host.Outcome.next.inj ((modeGate.1 (.blink n) s rfl hm).symm.trans h)
    rfl
  | ready =>
    obtain rfl := Host.Outcome.next.inj ((exec_blink_of_ready hm n).symm.trans h)
    rw [respond_sh, blinkBody_eq_emit, emit_sh]

theorem blinkEvents_length (c : Cfg) {bs : List Byte} (hbs : bs.length = 504) : (blinkEvents c bs).length = 1013 := by
  simp [blinkEvents, positioning_length, hbs]

/-- Behind the two positioning commands stand the complements of the bytes, in order. -/
theorem blinkEvents_getElem?_inverted (c : Cfg) {bs : List Byte} {i : Nat} (hi : i < bs.length) :
    (blinkEvents c bs)[2 + i]? = some (.dat (~~~(bs.getD i 0#8))) := by
  rw [blinkEvents, List.getElem?_append_right (Nat.le_add_right 2 i), positioning_length, Nat.add_sub_cancel_left,
    List.getElem?_append_left (by simpa using hi)]
  simp [hi]

/-- Position `i` of copy `j`, in `n` copies of a list side by side. -/
theorem getElem?_flatten_replicate {α : Type} (l : List α) {n j i : Nat} (hj : j < n) (hi : i < l.length) :
    (List.replicate n l).flatten[l.length * j + i]? = l[i]? := by
  induction n generalizing j with
  | zero => omega
  | succ n ih =>
    rw [List.replicate_succ, List.flatten_cons]
    cases j with
    | zero => rw [Nat.mul_zero, Nat.zero_add, List.getElem?_append_left hi]
    | succ j =>
      rw [Nat.mul_succ, Nat.add_right_comm, List.getElem?_append_right (Nat.le_add_left ..), Nat.add_sub_cancel_right]
      exact ih (Nat.lt_of_succ_lt_succ hj)

/-- The inverted phase of iteration `j` streams the complement of every shadow byte. -/
theorem blinkLog_getElem?_inverted (s : State) {n j i : Nat} (hj : j < n) (hi : i < 504) :
    (blinkLog s n)[1013 * j + 2 + i]? = some (.dat (~~~(s.sh.read i))) := by
  have hlen := blinkEvents_length s.cfg (shadow_length s)
  have hcopy := getElem?_flatten_replicate (blinkEvents s.cfg (shadow s)) (i := 2 + i) hj (by omega)
  rw [hlen, blinkEvents_getElem?_inverted s.cfg (by rwa [shadow_length]), shadow_getD s hi, ← Nat.add_assoc] at hcopy
  exact List.getElem?_append_left (List.getElem?_eq_some_iff.mp hcopy).1 ▸ hcopy

/-- Settles O43: BLINK writes the log alone, and the complement of a byte inverts each of its eight bits. -/
theorem blinkInvertsEveryPixel : Obligations.BlinkInvertsEveryPixel := by
  refine ⟨fun s t n h => exec_blink_sh h, fun s n hm => ?_⟩
  refine ⟨_, blinkLog s n.toNat, exec_blink_of_ready hm n, by rw [respond_log, blinkBody_eq_emit, emit_log],
    fun j i hj hi => ⟨_, blinkLog_getElem?_inverted s hj hi, BitVec.toNat_not, fun k hk => ?_⟩⟩
  rw [BitVec.getLsbD_not, decide_eq_true hk, Bool.true_and]

end Sys2Proof.Machine
end

section
/-! SUPPORT. The statements of 45_generators.md: the sine and distance tables, and the frames of the three generators, pixel by
pixel. -/

namespace Sys2Proof.Machine

open Sys2Proof.Claims

/-! ### SINE (R105 to R107) -/

theorem abs_sine_le (d : Int) : |sine d| ≤ 2 ^ 24 := sineTurn_bound _

theorem sine_eq_of_emod_eq {d e : Int} (h : d % 360 = e % 360) : sine d = sine e := by rw [sine, sine, h]

/-- The angle counts modulo a turn. -/
theorem sine_emod (d : Int) : sine d = sine (d % 360) := sine_eq_of_emod_eq (Int.emod_emod d 360).symm

theorem sine_natCast {k : Nat} (hk : k < 360) : sine k = sineTurn k := sine_of_turn k k (by omega)

theorem sineHalf_of_le {k : Nat} (hk : k ≤ 90) : sineHalf k = sineRom.getD k 0 := if_pos hk

theorem sineHalf_of_gt {k : Nat} (hk : 90 < k) : sineHalf k = sineRom.getD (180 - k) 0 := if_neg (by omega)

theorem sineTurn_of_le {k : Nat} (hk : k ≤ 180) : sineTurn k = sineHalf k := if_pos hk

theorem sineTurn_of_gt {k : Nat} (hk : 180 < k) : sineTurn k = -sineHalf (k - 180) := if_neg (by omega)

/-- Settles O46: the two quarters and the negated half of the model's turn are the first three cases, and the moves of a whole
turn keep the angle modulo 360. -/
theorem sineReduction : Obligations.SineReduction := by
  refine fun d => ⟨fun h0 h90 => ?_, fun h90 h180 => ?_, fun h180 h360 => ?_, fun hout => ?_, sine_emod d, ?_⟩
  · lift d to Nat using h0
    rw [sine_natCast (by omega), sineTurn_of_le (by omega), sineHalf_of_le (by omega), Int.toNat_natCast]
  · lift d to Nat using by omega
    rw [sine_natCast (by omega), sineTurn_of_le (by omega), sineHalf_of_gt (by omega),
      show (180 - (d : Int)).toNat = 180 - d by omega]
  · lift d to Nat using by omega
    rw [show (d : Int) - 180 = (d - 180 : Nat) by omega, sine_natCast (by omega), sine_natCast (by omega),
      sineTurn_of_gt (by omega), sineTurn_of_le (k := d - 180) (by omega)]
  · exact sine_eq_of_emod_eq (Int.sub_mul_emod_self_left d 360 d.sign).symm
  · have := abs_le.mp (abs_sine_le d)
    omega

/-- Settles O47: five entries of the table, the reduction of the angle and the bound of the table. -/
theorem sineProperties : Obligations.SineProperties :=
  ⟨by decide, by decide, by decide, fun e he => (sineRom_bound e he).2, by decide, by decide, sine_emod, abs_sine_le⟩

/-- Settles O45: the bound of `sine` leaves its value unchanged in the 32 bits of the answer. -/
theorem sineEffect : Obligations.SineEffect := by
  refine fun s imm => ⟨_, rfl, ?_⟩
  have hbound := abs_le.mp (abs_sine_le (angle imm))
  rw [BitVec.toInt_ofInt_eq_self (by decide) (by omega) (by omega), angle_eq]

/-! ### DIST (R108 to R110) -/

theorem dist_eq_rootDistance (q : Nat) : dist q = rootDistance q := dist_eq_sqrt q

/-- Settles O48: the saturated root fits the byte of the answer. -/
theorem distEffect : Obligations.DistEffect := by
  refine fun s q => ⟨_, rfl, ?_⟩
  have hbound : rootDistance q.toNat ≤ 127 := Nat.min_le_left _ _
  rw [squaredDistance_eq, dist_eq_rootDistance, BitVec.toNat_ofNat, Nat.mod_eq_of_lt (by omega)]

/-- Settles O49: the root is monotone, and the table holds the squares. -/
theorem distMonotone : Obligations.DistMonotone := by
  refine ⟨fun q₁ q₂ h => ?_, fun q => ?_⟩
  · rw [dist_eq_sqrt, dist_eq_sqrt]
    exact min_le_min_left 127 (Nat.sqrt_le_sqrt h)
  · rw [dist_eq_countP, distRom_eq]

/-! ### Packed frames (R111, R112) -/

/-- Byte `6*X + Y/8` is the strip of column `X` in bank `Y/8`, and its bit `Y % 8` the pixel of row `Y`. -/
theorem framePixel_pack (lit : Int → Int → Bool) {X Y : Nat} (hX : X < 84) (hY : Y < 48) :
    framePixel (pack lit) X Y = lit ((X : Int) - 42) ((Y : Int) - 24) := by
  have hcolumn : (6 * X + Y / 8) / 6 = X := by omega
  have hrow : 8 * ((6 * X + Y / 8) % 6) + Y % 8 = Y := by omega
  rw [framePixel, pack_getD lit (by omega), packStrip_getLsbD lit _ _ (by omega), hcolumn, hrow]

theorem shows_pack (lit : Int → Int → Bool) : Shows (pack lit) lit :=
  ⟨pack_length lit, fun _ _ hX hY => framePixel_pack lit hX hY⟩

theorem pack_eq_replicate {lit : Int → Int → Bool} (h : ∀ x y, lit x y = true) : pack lit = List.replicate 504 0xFF#8 := by
  obtain rfl : lit = fun _ _ => true := funext fun x => funext (h x)
  have hstrip : ∀ X bank, packStrip (fun _ _ => true) X bank = 0xFF#8 := fun X bank => by
    simp only [packStrip, if_true]
    decide
  simp only [pack, hstrip, List.map_const', List.length_range]

theorem lowBitsDiffer_eq (a b : Int) : lowBitsDiffer a b = decide (a % 2 ≠ b % 2) := by
  rw [lowBitsDiffer, bne, beq_eq_decide, decide_not]

/-! ### GEN_RADIAL (R113, R114) -/

theorem litRadial_eq (t : Nat) : litRadial t = radialLit t := by
  funext x y
  simp only [litRadial, radialLit, asr_eq_ediv, lowBitsDiffer_eq, Int.reducePow]

/-- Settles O50: the model's predicate is R113's with its shifts as quotients, and the frame shows it. -/
theorem genRadialEffect : Obligations.GenRadialEffect := by
  refine fun s t => ⟨_, rfl, ?_⟩
  rw [timeStep_eq, litRadial_eq]
  exact shows_pack _

/-! ### GEN_INTERF (R115, R116) -/

theorem ring_eq (sx sy x y : Int) :
    ring sx sy x y = (rootDistance ((x - sx) ^ 2 + (y - sy) ^ 2).toNat / 4 : Nat) := by
  rw [ring, asr_eq_ediv, dist_eq_rootDistance, ← pow_two, ← pow_two]
  rfl

theorem litInterf_eq (t : Nat) : litInterf t = interfLit t := by
  funext x y
  have hbits : ∀ m n : Nat, ((m : Int) % 2 ≠ (n : Int) % 2) ↔ m % 2 ≠ n % 2 := fun m n => by omega
  simp only [litInterf, litInterfAt, interfLit, sources, asr_eq_ediv, lowBitsDiffer_eq, ring_eq, hbits, Int.reducePow]

/-- Settles O51: the model's predicate is R115's with the root for the count, and the frame shows it. -/
theorem genInterfEffect : Obligations.GenInterfEffect := by
  refine fun s t => ⟨_, rfl, ?_⟩
  rw [timeStep_eq, litInterf_eq]
  exact shows_pack _

/-! ### GEN_FRACTAL (R117 to R122) -/

theorem fractalCr_eq (t : Nat) (x : Int) : fractalCr t x = fractalPoint (-2048) t x := by
  rw [fractalCr, fractalStep, asr_eq_ediv]
  rfl

theorem fractalCi_eq (t : Nat) (y : Int) : fractalCi t y = fractalPoint 0 t y := by
  rw [fractalCi, fractalStep, asr_eq_ediv]
  rfl

theorem shortcuts_eq (cr ci : Int) : (inCardioid cr ci || inBulb2 cr ci) = insideByShortcut cr ci := by
  simp only [inCardioid, inBulb2, insideByShortcut, ← pow_two, Int.reducePow]

/-- The escape test of each round comes before its update, in both. -/
theorem neverEscapes_eq (cr ci : Int) (k : Nat) (zr zi : Int) :
    neverEscapes cr ci k zr zi = staysInside cr ci k zr zi := by
  induction k generalizing zr zi with
  | zero => rfl
  | succ k ih =>
    simp only [neverEscapes, staysInside, asr_eq_ediv, ← pow_two, Int.reducePow, ih]
    split
    next hescape => rw [decide_eq_false (by omega), Bool.false_and]
    next hstays => rw [decide_eq_true (by omega), Bool.true_and]

theorem litFractal_eq (t : Nat) : litFractal t = fractalLit t := by
  funext x y
  simp only [litFractal, fractalLit, fractalCr_eq, fractalCi_eq, shortcuts_eq, neverEscapes_eq, fractalBudget,
    Nat.shiftRight_one]

theorem exec_genFractal_of_le {t : BitVec 16} (ht : t.toNat ≤ 64) (s : State) :
    exec (.genFractal t) s = .next (respond (.frame (pack (litFractal t.toNat))) s) := by
  rw [← timeStep_eq] at ht ⊢
  exact congrArg _ (if_neg (Nat.not_lt.mpr ht))

theorem exec_genFractal_of_gt {t : BitVec 16} (ht : 64 < t.toNat) (s : State) :
    exec (.genFractal t) s = .next (raise .timeRange s) := by
  rw [← timeStep_eq] at ht
  exact congrArg _ (if_pos ht)

/-- Settles O52: up to the last time step the frame shows the model's predicate, which is R120's, and beyond it the request
faults. -/
theorem genFractalEffect : Obligations.GenFractalEffect := by
  refine fun s t => ⟨fun ht => ⟨_, exec_genFractal_of_le ht s, ?_⟩, fun ht => ?_⟩
  · rw [litFractal_eq]
    exact shows_pack _
  · rw [exec_genFractal_of_gt ht, raise_eq_faulted, ErrCode.code]

/-- The centre of the view is inside the cardioid. -/
theorem litFractal_of_centre {t : Nat} {x y : Int} (hcr : fractalCr t x = -2048) (hci : fractalCi t y = 0) :
    litFractal t x y = true := by
  have hcardioid : inCardioid (-2048) 0 = true := by decide
  simp only [litFractal, hcr, hci, hcardioid, Bool.true_or]

/-- At the last time step the grid has shrunk to the centre of the view. -/
theorem litFractal_last (x y : Int) : litFractal 64 x y = true := by
  have hstep : fractalStep 64 = 0 := by decide
  refine litFractal_of_centre ?_ ?_
  · rw [fractalCr, hstep, mul_zero, add_zero]
  · rw [fractalCi, hstep, mul_zero, add_zero]

/-- Settles O53: the grid's origin is the centre of the view, bit 0 of bank 3 in column 42, and the last grid is all centre. -/
theorem fractalBoundaryFrames : Obligations.FractalBoundaryFrames := by
  refine fun s => ⟨⟨_, exec_genFractal_of_le (by decide) s, ?_⟩, ?_⟩
  · have hpixel := framePixel_pack (litFractal 0) (X := 42) (Y := 24) (by decide) (by decide)
    exact hpixel.trans (litFractal_of_centre rfl rfl)
  · have hframe : pack (litFractal (64#16).toNat) = List.replicate 504 0xFF#8 := pack_eq_replicate litFractal_last
    rw [exec_genFractal_of_le (by decide), hframe]
    rfl

end Sys2Proof.Machine
end

section
/-! SUPPORT. The statements of 60_exceptions.md: what a fault leaves alone, which check raises it, and the conditions that are
no faults. -/

namespace Sys2Proof.Machine

open Sys2Proof.Claims

/-! ### A fault is precise (R126, R129) -/

/-- A step with a request on the port takes it, whole, and does what a request can do. -/
theorem step_execCases_of_port {s t : State} {r : Request} {rest : List Request} (hp : s.port = r :: rest)
    (h : step s = .next t) : ExecCases { s with port := rest } t := by
  obtain ⟨-, ⟨-, hnil⟩ | ⟨r', rest', hp', hrun⟩⟩ := step_cases h
  · exact absurd (hp.symm.trans hnil) (List.cons_ne_nil r rest)
  · obtain ⟨rfl, rfl⟩ := List.cons.inj (hp.symm.trans hp')
    obtain ⟨i, -, hexec⟩ | ⟨-, hraise⟩ := hrun
    · exact exec_cases hexec
    · exact .faulted _ hraise

/-- The response tells the two cases apart: a success answers FAULT = 0, so a response that names a fault was raised. -/
theorem ExecCases.eq_faulted {s t : State} {a : Response} (h : ExecCases s t) (ht : t.responses = s.responses ++ [a])
    (ha : a.fault ≠ 0#3) : t = Claims.faulted a.fault s := by
  cases h with
  | faulted e h =>
    subst h
    obtain rfl := List.singleton_inj.mp (List.append_cancel_left ht)
    exact raise_eq_faulted e s
  | answered v u h _ _ _ _ _ hresponses =>
    rw [h, respond_responses, hresponses] at ht
    obtain rfl := List.singleton_inj.mp (List.append_cancel_left ht)
    exact absurd rfl ha

/-- Settles O19: the step takes the request from the port, and what it then did, it can only have raised. -/
theorem faultsArePrecise : Obligations.FaultsArePrecise := fun _ _ _ _ _ hp h ht ha =>
  (step_execCases_of_port hp h).eq_faulted ht ha

/-! ### The order of the checks (R128) -/

/-- Settles O20: an illegal word faults in the step itself, before any request runs; the gate faults before the body it is
around; and the operand checks are the bodies' own. -/
theorem firstFailingCheckRaises : Obligations.FirstFailingCheckRaises := by
  refine ⟨fun s r rest hc hp hr => ?decode, fun s i hm hi => modeGate.1 i s hi hm, fun s f hm hf => ?size,
    fun s t ht => (genFractalEffect s t).2 ht⟩
  case decode => rw [step_of_illegal hc hp hr, raise_eq_faulted, ErrCode.code]
  case size => rw [exec_drawBuffer_of_wrong_length hf, if_pos hm]

/-! ### Conditions that are no faults (R127) -/

/-- A byte that is not printable has the glyph of `?` (R78, R80). -/
theorem glyphIndex_of_not_printable {b : Byte} (h : ¬(0x20 ≤ b.toNat ∧ b.toNat ≤ 0x7E)) :
    glyphIndex b = glyphIndex 0x3F#8 := by
  rw [glyphIndex, dif_neg h]
  rfl

/-- In PRINT a byte that is neither printable nor the newline does what `?` does (R77, R78). -/
theorem printByte_of_not_printable {b : Byte} (hp : ¬(0x20 ≤ b.toNat ∧ b.toNat ≤ 0x7E)) (hn : b ≠ 0x0A#8) (s : State) :
    printByte s b = printByte s 0x3F#8 := by
  have hn' : ¬b.toNat = 0x0A := fun h => hn (BitVec.eq_of_toNat_eq h)
  rw [printByte_of_other hp hn', printByte_of_printable (by decide)]

/-- A request that runs a text body and answers leaves STATUS and answers FAULT = 0. -/
theorem TextStep.exec_answers {i : Instr} {s u : State} (h : TextStep s u) (hexec : exec i s = .next (respond .none u)) :
    ∃ t, exec i s = .next t ∧ t.status = s.status ∧ t.responses = Claims.answered s .none :=
  ⟨_, hexec, h.status, h.answered .none⟩

/-- Settles O21, one condition at a time. -/
theorem conditionsThatAreNoFaults : Obligations.ConditionsThatAreNoFaults := by
  refine fun s hm => ⟨fun col row hout => ?outOfRange, fun b hb => ⟨?placeholder, fun hn => ?placeholderInText⟩,
    fun text => (printText_textStep text s).exec_answers (exec_print_of_ready hm text),
    fun ch => (printCharBody_textStep _ s).exec_answers (exec_printChar_of_ready hm ch),
    ⟨_, exec_wakeUp_of_ready hm, rfl, rfl⟩, ?blinkNone, ⟨_, exec_init s, rfl, rfl⟩⟩
  case outOfRange => rw [exec_setCursor_of_ready hm, setCursorBody_of_not s hout]; rfl
  case placeholder => rw [exec_printChar_of_ready hm, exec_printChar_of_ready hm, glyphIndex_of_not_printable hb]
  case placeholderInText =>
    simp only [exec_print_of_ready hm, List.foldl_cons, List.foldl_nil, printByte_of_not_printable hb hn]
  case blinkNone => exact exec_blink_of_ready hm 0#16

end Sys2Proof.Machine
end

section
/-! SUPPORT. The statements of 70_reset_and_hazards.md: what construction leaves, a step that finds no request, and how many
events each request emits on a READY block. -/

namespace Sys2Proof.Machine

open Sys2Proof.Claims

/-! ### How many events a request emits (R164) -/

/-- The events behind the log a request found are the ones it emitted, so their number is how much the log grew. -/
theorem emitted_eq {i : Instr} {s t u : State} {es : List Event} {n : Nat} (h : exec i s = .next t)
    (hexec : exec i s = .next u) (hlog : u.log = s.log ++ es) (hn : es.length = n) :
    t.log.length - s.log.length = n := by
  obtain rfl := Host.Outcome.next.inj (h.symm.trans hexec)
  rw [hlog, List.length_append, Nat.add_sub_cancel_left, hn]

/-- A request that leaves the log as it was emits nothing. -/
theorem emitted_eq_zero {i : Instr} {s t u : State} (h : exec i s = .next t) (hexec : exec i s = .next u)
    (hlog : u.log = s.log) : t.log.length - s.log.length = 0 :=
  emitted_eq h hexec (hlog.trans (List.append_nil _).symm) rfl

/-- R26: a generator request emits nothing, whether it answers or faults. -/
theorem emitted_of_generates {i : Instr} {s t : State} (hi : generates i = true) (h : exec i s = .next t) :
    t.log.length - s.log.length = 0 := by
  obtain ⟨v, hv⟩ | ⟨e, he⟩ := exec_of_generates hi
  · exact emitted_eq_zero h (hv s) rfl
  · exact emitted_eq_zero h (he s) rfl

theorem scrollEvents_length (c : Cfg) (sh : Memory) (col row : Nat) : (scrollEvents c sh col row).length = 508 := by
  simp only [scrollEvents, List.length_append, List.length_map, Memory.bytes_length, zeros_length, positioning_length]

theorem uploadEvents_length (c : Cfg) {frame : List Byte} (hf : frame.length = 504) :
    (uploadEvents c frame).length = 510 := by
  simp only [uploadEvents, List.length_append, List.length_map, List.length_singleton, hf, positioning_length]

theorem powerDownEvents_length (c : Cfg) (col row : Nat) : (powerDownEvents c col row).length = 509 := by
  simp only [powerDownEvents, List.length_append, List.length_map, List.length_singleton, zeros_length,
    positioning_length]

/-- `n` iterations of 1013 events, and the two commands that return to the cursor. -/
theorem blinkLog_length (s : State) (n : Nat) : (blinkLog s n).length = if n = 0 then 0 else 1013 * n + 2 := by
  rw [blinkLog, List.length_append, List.length_flatten, List.map_replicate, List.sum_replicate_nat,
    blinkEvents_length s.cfg (shadow_length s)]
  split
  next h => rw [h]; rfl
  next => rw [positioning_length, Nat.mul_comm]

/-- Settles O44: what each request appends to the log on a READY block, counted. -/
theorem eventCounts : Obligations.EventCounts := by
  intro s t i hm h n
  cases i with
  | init => exact emitted_eq h (exec_init s) rfl (initEvents_length s.cfg)
  | clear => exact emitted_eq h (exec_clear_of_ready hm) rfl (clearEvents_length s.cfg)
  | print text =>
    rintro rfl
    exact emitted_eq_zero h (exec_print_of_ready hm []) rfl
  | printChar ch =>
    intro hc
    obtain ⟨u, hexec, -, -, -, -, hlog, -⟩ := printCharWithinRow s ch hc hm
    exact emitted_eq h hexec hlog rfl
  | setCursor col row =>
    obtain ⟨hinside, houtside⟩ := setCursorEffect s col row hm
    dsimp only
    split
    next hin => exact emitted_eq h (hinside hin.1 hin.2) rfl rfl
    next hout => exact emitted_eq_zero h (houtside (by omega)) rfl
  | drawBuffer f =>
    dsimp only
    split
    next hf =>
      exact emitted_eq h (exec_drawBuffer_of_ready hm hf) (by rw [respond_log, drawBufferBody_eq])
        (uploadEvents_length s.cfg hf)
    next hf =>
      have hexec := exec_drawBuffer_of_wrong_length hf s
      rw [if_pos hm] at hexec
      exact emitted_eq_zero h hexec rfl
  | newLine =>
    dsimp only
    split
    next hr =>
      exact emitted_eq h (exec_newLine_of_ready hm) (by rw [respond_log, newLineBody_of_last s hr])
        (by rw [List.length_append, scrollEvents_length, positioning_length])
    next hr =>
      obtain ⟨hnextRow, -⟩ := newLineEffect s hm
      exact emitted_eq h (hnextRow (by omega)) rfl rfl
  | scroll => exact emitted_eq h (exec_scroll_of_ready hm) rfl (scrollEvents_length ..)
  | powerDown => exact emitted_eq h (exec_powerDown_of_ready hm) rfl (powerDownEvents_length ..)
  | wakeUp => exact emitted_eq h (exec_wakeUp_of_ready hm) rfl rfl
  | blink k =>
    exact emitted_eq h (exec_blink_of_ready hm k) (by rw [respond_log, blinkBody_eq_emit, emit_log])
      (blinkLog_length s k.toNat)
  | sine _ | dist _ | genRadial _ | genInterf _ | genFractal _ => exact emitted_of_generates rfl h

/-! ### Construction (R151) -/

/-- Settles O9: each field is the construction's own, and the shadow's empty memory reads 0x00 everywhere. -/
theorem constructionResetsState : Obligations.ConstructionResetsState := fun c =>
  ⟨rfl, rfl, fun i _ => Memory.read_nil i, rfl, rfl, rfl, step_of_cfg_not_wf (s := .constructed c)⟩

/-- The invariant asks of a constructed block only that its configuration be well-formed. -/
theorem State.Inv.constructed {c : Cfg} (hc : c.wf = true) : (State.constructed c).Inv :=
  ⟨hc, rfl, Nat.zero_le 4, fun _ => ⟨rfl, rfl, rfl⟩⟩

/-- Settles O14: State.reset is the construction with TC's parameters, which are well-formed. -/
theorem constructionMeetsInvariant : Obligations.ConstructionMeetsInvariant :=
  ⟨fun _ hc => .constructed hc, .constructed (by decide)⟩

/-! ### A step that finds no request (R60, R141, R152) -/

theorem step_of_port_nil {s : State} (hc : s.cfg.wf = true) (hp : s.port = []) : step s = .next s := by
  simp only [step, accept, hc, hp, if_true]

/-- A legal word whose payload has another length than it announces decodes to nothing. -/
theorem decode_of_payload_length_ne {r : Request} {h : Head} (hw : decodeWord r.word = .ok h)
    (hlen : r.payload.length ≠ payloadLen r.word) :
    decode r = .error (.payloadLength (payloadLen r.word) r.payload.length) := by
  simp only [decode, hw, if_neg hlen]

theorem step_of_payload_length_error {s : State} {r : Request} {rest : List Request} {announced given : Nat}
    (hc : s.cfg.wf = true) (hp : s.port = r :: rest) (hd : decode r = .error (.payloadLength announced given)) :
    step s = .refused .malformedRequest := by
  simp only [step, accept, hc, hp, hd, if_true]

/-- Settles O12: an empty port yields nothing to run, and a payload of the wrong length is no request. -/
theorem stepWithoutRequest : Obligations.StepWithoutRequest :=
  ⟨fun _ hc hp => step_of_port_nil hc hp,
    fun _ _ _ _ hc hp hw hlen => step_of_payload_length_error hc hp (decode_of_payload_length_ne hw hlen)⟩

end Sys2Proof.Machine
end
